-- ==== Sys2Proof/Word.lean ====
section
/-! DEFINITION. The word types of the BFU: bytes of the buffer (00 R7), 160-bit command words (30 R50) and
64-bit value ports (00 R4, R6). -/

namespace Sys2Proof

/-- One byte of the buffer, bit 0 its least significant bit (00 R7 (a)). -/
abbrev Byte := BitVec 8

/-- One command, `CMD[159:0]` (30 R50). -/
abbrev CommandWord := BitVec 160

/-- A value, an increment or a result: 64 bits, two's complement (00 R4, R6). -/
abbrev Value := BitVec 64

end Sys2Proof
end

