-- ==== Sys2Proof/Syntax.lean ====
section
/-! DEFINITION. The instructions as terms (30 R69): field types, offset operands, overflow policies and the four
instructions, one constructor per row of the opcode table. -/

namespace Sys2Proof

/-- Signedness `S` of a field: assembly `u` or `i` (30 R53). -/
inductive Signedness where
  | unsigned
  | signed
  deriving DecidableEq, Repr

/-- A field type, assembly `u<width>` or `i<width>` (30 R53, R54). Which widths are legal is a check of
WellFormed. -/
structure FieldType where
  sign : Signedness
  width : Nat
  deriving DecidableEq, Repr

/-- The offset operand: the mode bit `E` with the 64-bit unsigned `OFFSET` (30 R53, R56). -/
inductive Offset where
  /-- `E = 0`: an absolute bit offset. -/
  | absolute (n : BitVec 64)
  /-- `E = 1`: an element offset, assembly `#n`. -/
  | element (n : BitVec 64)
  deriving DecidableEq, Repr

/-- The three overflow policies (10 R12, 30 R55). The code 3 is never held, so there is no term for it (93 U6). -/
inductive Policy where
  | wrap
  | saturate
  | fail
  deriving DecidableEq, Repr

/-- The four instructions (00 R1, 30 R69). -/
inductive Instr where
  /-- `GET type offset` (42 R113). -/
  | get (type : FieldType) (offset : Offset)
  /-- `SET type offset value` (42 R114). -/
  | set (type : FieldType) (offset : Offset) (value : Value)
  /-- `INCRBY type offset increment` (42 R115). -/
  | incrby (type : FieldType) (offset : Offset) (increment : Value)
  /-- `OVERFLOW policy` (42 R118). -/
  | overflow (policy : Policy)
  deriving DecidableEq, Repr

end Sys2Proof
end

