-- ==== Sys2Proof/WellFormed.lean ====
section
/-! DEFINITION. Which instruction terms are legal: the width conditions of 00 R4 and 30 R54. -/

namespace Sys2Proof

/-- The largest legal width: 63 for an unsigned field, 64 for a signed one (00 R4, 30 R54, 90 C7). -/
def Signedness.maxWidth : Signedness → Nat
  | .unsigned => 63
  | .signed => 64

/-- A legal field type: `u1` to `u63`, `i1` to `i64` (30 R54). -/
def FieldType.legal (ty : FieldType) : Bool :=
  decide (1 ≤ ty.width) && decide (ty.width ≤ ty.sign.maxWidth)

/-- A legal instruction term: its field type, where it has one, is legal. Every other operand is legal at every
value (30 R58 (b) to (e)). -/
def Instr.wellFormed : Instr → Bool
  | .get ty _ => ty.legal
  | .set ty _ _ => ty.legal
  | .incrby ty _ _ => ty.legal
  | .overflow _ => true

end Sys2Proof
end

