-- ==== Sys2Proof/Decode.lean ====
section
/-! DEFINITION. The command encoding (30_encoding.md): the fields of a word (R51), which words are legal (R58), the
opcode table as match and mask, the decoder (R69), the encoder, and the table-word decoder the host asks. -/

namespace Sys2Proof

/-! ### The fields of a command word (30 R51) -/

/-- `OP = CMD[159:156]`. -/
def fieldOp (c : CommandWord) : BitVec 4 := c.extractLsb' 156 4

/-- The reserved bits `CMD[155:154]`. -/
def fieldReservedHigh (c : CommandWord) : BitVec 2 := c.extractLsb' 154 2

/-- `E = CMD[153]`. -/
def fieldE (c : CommandWord) : BitVec 1 := c.extractLsb' 153 1

/-- `S = CMD[152]`. -/
def fieldS (c : CommandWord) : BitVec 1 := c.extractLsb' 152 1

/-- `W = CMD[151:144]`. -/
def fieldW (c : CommandWord) : BitVec 8 := c.extractLsb' 144 8

/-- `POL = CMD[143:136]`. -/
def fieldPol (c : CommandWord) : BitVec 8 := c.extractLsb' 136 8

/-- The reserved bits `CMD[135:128]`. -/
def fieldReservedLow (c : CommandWord) : BitVec 8 := c.extractLsb' 128 8

/-- `OFFSET = CMD[127:64]`. -/
def fieldOffset (c : CommandWord) : BitVec 64 := c.extractLsb' 64 64

/-- `OPERAND = CMD[63:0]`. -/
def fieldOperand (c : CommandWord) : BitVec 64 := c.extractLsb' 0 64

/-- A word from its fields, in the order of 30 R51 with the reserved bits 0. -/
def wordOfFields (op : BitVec 4) (e s : BitVec 1) (w pol : BitVec 8) (offset operand : BitVec 64) : CommandWord :=
  op ++ 0#2 ++ e ++ s ++ w ++ pol ++ 0#8 ++ offset ++ operand

/-! ### The codes (30 R52, R53, R55) -/

/-- The code of `S`: 1 signed, 0 unsigned (30 R53). -/
def Signedness.code : Signedness → BitVec 1
  | .unsigned => 0#1
  | .signed => 1#1

/-- Reads `S` (30 R53). -/
def signednessOf (s : BitVec 1) : Signedness := if s = 1#1 then .signed else .unsigned

/-- The code of `E`: 1 for the element form (30 R53). -/
def Offset.modeCode : Offset → BitVec 1
  | .absolute _ => 0#1
  | .element _ => 1#1

/-- The number in `OFFSET` (30 R56). -/
def Offset.number : Offset → BitVec 64
  | .absolute n => n
  | .element n => n

/-- Reads `E` and `OFFSET` (30 R53, R56). -/
def offsetOf (e : BitVec 1) (n : BitVec 64) : Offset := if e = 1#1 then .element n else .absolute n

/-- The code of a policy, in `POL` and in the `POLICY` register (30 R55, 10 R12). -/
def Policy.code : Policy → Nat
  | .wrap => 0
  | .saturate => 1
  | .fail => 2

/-- Reads `POL`: the codes 3 to 255 are illegal (30 R55). -/
def policyOf (pol : BitVec 8) : Option Policy :=
  if pol = 0#8 then some .wrap else if pol = 1#8 then some .saturate else if pol = 2#8 then some .fail else none

/-- The field type that `S` and `W` name; `W` is the width itself (30 R53, R54). -/
def typeOf (c : CommandWord) : FieldType := { sign := signednessOf (fieldS c), width := (fieldW c).toNat }

/-! ### Legal words (30 R58) -/

/-- The conditions on `W` and `S` shared by 30 R58 (b), (c) and (d). -/
def legalWidth (c : CommandWord) : Bool :=
  decide (1 ≤ (fieldW c).toNat) && decide ((fieldW c).toNat ≤ 64) &&
    (decide (fieldS c = 1#1) || decide ((fieldW c).toNat ≤ 63))

/-- `Legal(c)` of 30 R58: (a) and one of (b) to (e). -/
def legal (c : CommandWord) : Bool :=
  decide (fieldReservedHigh c = 0#2 ∧ fieldReservedLow c = 0#8) &&
    ((decide (fieldOp c = 1#4 ∧ fieldPol c = 0#8 ∧ fieldOperand c = 0#64) && legalWidth c) ||
     (decide (fieldOp c = 2#4 ∧ fieldPol c = 0#8) && legalWidth c) ||
     (decide (fieldOp c = 3#4 ∧ fieldPol c = 0#8) && legalWidth c) ||
     decide (fieldOp c = 4#4 ∧ fieldE c = 0#1 ∧ fieldS c = 0#1 ∧ fieldW c = 0#8 ∧ (fieldPol c).toNat ≤ 2 ∧
       fieldOffset c = 0#64 ∧ fieldOperand c = 0#64))

/-- One row of the opcode map of 30 R58: a word matches when `c AND mask = match`, and the residual condition says
what a mask cannot. -/
structure TableRow where
  mnemonic : String
  pattern : CommandWord
  mask : CommandWord
  residual : CommandWord → Bool

/-- The opcode map of 30 R58, row by row. -/
def opcodeTable : List TableRow :=
  [ { mnemonic := "GET"
      pattern := 0x1000000000000000000000000000000000000000#160
      mask := 0xFC00FFFF0000000000000000FFFFFFFFFFFFFFFF#160
      residual := legalWidth },
    { mnemonic := "SET"
      pattern := 0x2000000000000000000000000000000000000000#160
      mask := 0xFC00FFFF00000000000000000000000000000000#160
      residual := legalWidth },
    { mnemonic := "INCRBY"
      pattern := 0x3000000000000000000000000000000000000000#160
      mask := 0xFC00FFFF00000000000000000000000000000000#160
      residual := legalWidth },
    { mnemonic := "OVERFLOW"
      pattern := 0x4000000000000000000000000000000000000000#160
      mask := 0xFFFF00FFFFFFFFFFFFFFFFFFFFFFFFFFFFFFFFFF#160
      residual := fun c => decide ((fieldPol c).toNat ≤ 2) } ]

/-- A word matches a row, mask and residual condition both. -/
def TableRow.matches (r : TableRow) (c : CommandWord) : Bool := decide (c &&& r.mask = r.pattern) && r.residual c

/-! ### The decoder (30 R69) -/

/-- Why a word is illegal. The hardware reports only that it is (`FCAUSE = 1`); the names and the order they are
looked for in are the model's own (log entry 11). -/
inductive DecodeError where
  /-- `CMD[155:154]` or `CMD[135:128]` is not 0 (30 R58 (a)). -/
  | reservedNotZero
  /-- `OP` is 0 or 5 to 15 (30 R52). -/
  | unknownOp
  /-- `W = 0`, `W >= 65`, or `W = 64` with `S = 0` (30 R54). -/
  | illegalWidth
  /-- `POL` is not 0 in GET, SET or INCRBY (30 R55). -/
  | policyNotZero
  /-- `OPERAND` is not 0 in GET (30 R57). -/
  | operandNotZero
  /-- A field OVERFLOW does not use is not 0 (30 R58 (e)). -/
  | unusedNotZero
  /-- OVERFLOW with `POL` of 3 or more (30 R55). -/
  | illegalPolicy
  deriving DecidableEq, Repr

/-- The checks GET, SET and INCRBY share, then the instruction (30 R58 (b) to (d)). -/
def decodeField (c : CommandWord) (i : Instr) : Except DecodeError Instr :=
  if fieldPol c = 0#8 then
    if (typeOf c).legal then .ok i else .error .illegalWidth
  else .error .policyNotZero

/-- OVERFLOW (30 R58 (e)). -/
def decodeOverflow (c : CommandWord) : Except DecodeError Instr :=
  if fieldE c = 0#1 ∧ fieldS c = 0#1 ∧ fieldW c = 0#8 ∧ fieldOffset c = 0#64 ∧ fieldOperand c = 0#64 then
    match policyOf (fieldPol c) with
    | some p => .ok (.overflow p)
    | none => .error .illegalPolicy
  else .error .unusedNotZero

/-- `Decode(c)` of 30 R69, total on 160-bit words, rejecting by name. -/
def decode (c : CommandWord) : Except DecodeError Instr :=
  if fieldReservedHigh c = 0#2 ∧ fieldReservedLow c = 0#8 then
    if fieldOp c = 1#4 then
      if fieldOperand c = 0#64 then decodeField c (.get (typeOf c) (offsetOf (fieldE c) (fieldOffset c)))
      else .error .operandNotZero
    else if fieldOp c = 2#4 then
      decodeField c (.set (typeOf c) (offsetOf (fieldE c) (fieldOffset c)) (fieldOperand c))
    else if fieldOp c = 3#4 then
      decodeField c (.incrby (typeOf c) (offsetOf (fieldE c) (fieldOffset c)) (fieldOperand c))
    else if fieldOp c = 4#4 then decodeOverflow c
    else .error .unknownOp
  else .error .reservedNotZero

/-! ### The encoder (30 R51 to R57, R67) -/

/-- The word of a command that names a field. -/
def encodeField (op : BitVec 4) (ty : FieldType) (off : Offset) (operand : BitVec 64) : CommandWord :=
  wordOfFields op off.modeCode ty.sign.code (BitVec.ofNat 8 ty.width) 0#8 off.number operand

/-- `Encode` of 30 R69: the one word of a well-formed instruction. -/
def encode : Instr → CommandWord
  | .get ty off => encodeField 1#4 ty off 0#64
  | .set ty off value => encodeField 2#4 ty off value
  | .incrby ty off increment => encodeField 3#4 ty off increment
  | .overflow p => wordOfFields 4#4 0#1 0#1 0#8 (BitVec.ofNat 8 p.code) 0#64 0#64

/-! ### Words as the opcode table numbers them -/

/-- The command word whose low `nbits` bits are `w` and whose other bits are 0. A command is one parallel word with no
byte order (20 R32), and the table numbers its bits as 30 R51 does. -/
def tableWord (nbits w : Nat) : CommandWord := BitVec.ofNat 160 (w % 2 ^ nbits)

/-- What the decoder reads from the table's word `w` of `nbits` bits; `none` where it refuses. -/
def decodeTableWord (nbits w : Nat) : Option Instr :=
  match decode (tableWord nbits w) with
  | .ok i => some i
  | .error _ => none

end Sys2Proof
end

