-- ==== Sys2Proof/Config.lean ====
section
/-! DEFINITION. The parameters the spec leaves open (00 R5, decisions D3 and D12): the capacity `CAP` of the buffer
memory in bytes and `QCAP` of the batch store and the result list in entries. Each is a natural number of at least 1,
or infinity. The spec has no instruction whose result it leaves undefined, so there is no free value here. -/

namespace Sys2Proof

/-- A capacity of 00 R5: `∞`, or a natural number of at least 1. -/
inductive Capacity where
  /-- `∞`: no bound. For `CAP` this is the source's behaviour exactly (00 R5). -/
  | infinite
  /-- At most `n` entries. -/
  | finite (n : Nat) (positive : 1 ≤ n)
  deriving DecidableEq, Repr

/-- `n` entries do not exceed the capacity: `n <= CAP`. -/
def Capacity.fits : Capacity → Nat → Bool
  | .infinite, _ => true
  | .finite c _, n => decide (n ≤ c)

/-- The two parameters of one BFU (00 R5). They are the model's arguments: a machine carries its own pair. -/
structure Config where
  /-- `CAP`, in bytes. -/
  cap : Capacity
  /-- `QCAP`, in commands and in result records. -/
  qcap : Capacity
  deriving DecidableEq, Repr

/-- `CAP = QCAP = ∞`: nothing bounds the buffer or the batch, as in the source (00 R5, D3). -/
def Config.unbounded : Config := { cap := .infinite, qcap := .infinite }

end Sys2Proof
end

