-- ==== Sys2Proof/Machine/State.lean ====
section
/-! DEFINITION. The state of one BFU (10_state.md), its reset values (10 R22), and the reasons a step can stop. -/

namespace Sys2Proof.Machine

/-- The overflow indicator (10 R18): 0 no overflow, 1 overflow, -1 underflow. It is three-valued (93 U6) and is not
state: it lives inside one INCRBY and in its record. -/
inductive Indicator where
  | none
  | overflow
  | underflow
  deriving DecidableEq, Repr

/-- One result record (30 R60): `REFUSED`, `OVF` and `VALUE`. `Machine/Ops.lean` packs it into its 67 bits. -/
structure ResultRecord where
  refused : Bool
  ovf : Indicator
  value : Value
  deriving DecidableEq, Repr

/-- The register `RUN` (10 R17). -/
inductive RunState where
  /-- Code 0: after reset, no batch has been started. -/
  | idle
  /-- Code 1: a batch is executing. -/
  | running
  /-- Code 2: the last batch ran to its end without fault. -/
  | done
  /-- Code 3: the last batch stopped on a fault or was rejected by pre-validation. -/
  | fault
  deriving DecidableEq, Repr

/-- The register `FCAUSE` (10 R19, 60 R133). The code 3 is never held (93 U6). -/
inductive FaultCause where
  /-- Code 0. -/
  | none
  /-- Code 1, ILLEGAL_CMD (60 R131). -/
  | illegalCmd
  /-- Code 2, CAPACITY (60 R132). -/
  | capacity
  deriving DecidableEq, Repr

/-- The bytes of the buffer that are not 0, by address: addresses strictly rising, no entry of value 0
(`Memory.wf`, Machine/Ops.lean). -/
abbrev Memory := List Host.Cell

/-- The complete state of one BFU (10 R20). -/
structure State where
  /-- The parameters `CAP` and `QCAP` (00 R5), carried so that a step can use them. Nothing writes them (log entry 1). -/
  cfg : Config
  /-- `B[0..LEN-1]` (10 R11): the bytes that are not 0. -/
  mem : Memory
  /-- `LEN` (10 R11). -/
  len : Nat
  /-- `POLICY` (10 R12). -/
  policy : Policy
  /-- `CMD[0..NCMD-1]` (10 R13). -/
  cmd : List CommandWord
  /-- `PC` (10 R15). -/
  pc : Nat
  /-- `RES[0..RCNT-1]` (10 R16). -/
  res : List ResultRecord
  /-- `RUN` (10 R17). -/
  run : RunState
  /-- `FCAUSE` (10 R19). -/
  fcause : FaultCause
  /-- `FIDX` (10 R19). -/
  fidx : Nat
  deriving DecidableEq, Repr

/-- `NCMD`, the number of commands loaded (10 R13): only `CMD[0..NCMD-1]` is state, so it is the length of the
store (log entry 3). -/
def State.ncmd (s : State) : Nat := s.cmd.length

/-- `RCNT`, the number of records written (10 R16): only `RES[0..RCNT-1]` is state (log entry 3). -/
def State.rcnt (s : State) : Nat := s.res.length

/-- The state right after reset of a BFU with the given parameters (10 R22, 70 R150). -/
def State.resetWith (cfg : Config) : State :=
  { cfg := cfg, mem := [], len := 0, policy := .wrap, cmd := [], pc := 0, res := [], run := .idle,
    fcause := .none, fidx := 0 }

/-- The state right after reset, with `CAP = QCAP = ∞` (DESIGN CHOICE, log entry 1: the spec leaves both open). -/
def State.reset : State := State.resetWith Config.unbounded

/-- Why a step stops. The two faults of the spec (60 R130) are not here: they are entered as a next state with
`RUN = FAULT`. -/
inductive Fault where
  /-- `step` where `RUN` is not RUNNING: the spec gives the sequencer no step there (42 R110, R119). Safe: nothing
  can be proved of a step that does not exist (log entry 4). -/
  | notRunning (run : RunState)
  /-- `step` where `RUN = RUNNING` and `PC > NCMD`, a state 10 R15 excludes and no run reaches. Safe (log entry 5). -/
  | pcOutsideBatch
  deriving DecidableEq, Repr

/-- Why an instruction is given no meaning. -/
inductive Refusal where
  /-- An arm of `exec` whose instruction has no meaning yet. Safe. No arm uses it. -/
  | notModelled (mnemonic : String)
  /-- `execGet`, `execSet`, `execIncrby` on a field type outside `u1` to `u63` and `i1` to `i64`: the units are given
  no meaning there (93 U3, "Treatment: refuse"). No legal word holds one, so no step raises it. Safe (log entry 10). -/
  | widthUndefined
  deriving DecidableEq, Repr

end Sys2Proof.Machine
end

