-- ==== Sys2Proof/Machine/Ops.lean ====
section
/-! DEFINITION. The named operations over the state: the memory cells, the primitives of 00 R9 (`MemRead`,
`MemWrite`, `BufBit`, `SetBufBit`, `Grow`, `raise`, `RES.append`, `pc <-`), the register codes, the record format, and
the fetch. -/

namespace Sys2Proof.Machine

/-! ### The cells -/

/-- What an address that is not listed reads as: 0. Bytes added by growth are 0 (20 R39), so this is the spec's value
and not a choice (log entry 2). -/
def unlistedByte : Byte := 0#8

/-- The byte listed at an address. -/
def Memory.read : Memory → Nat → Byte
  | [], _ => unlistedByte
  | (b, v) :: rest, a => if b = a then v else Memory.read rest a

/-- Puts a cell in its place in a list of rising addresses. -/
def Memory.insert (a : Nat) (v : Byte) : Memory → Memory
  | [] => [(a, v)]
  | (b, u) :: rest => if a < b then (a, v) :: (b, u) :: rest else (b, u) :: Memory.insert a v rest

/-- Writes one byte. Writing what an unlisted address reads as removes the cell. -/
def Memory.write (m : Memory) (a : Nat) (v : Byte) : Memory :=
  let others := m.filter (fun c => c.1 != a)
  if v = unlistedByte then others else Memory.insert a v others

/-- The canonical form: addresses strictly rising, no cell holding what an unlisted address reads as. -/
def Memory.wf : Memory → Bool
  | [] => true
  | (a, v) :: rest => decide (v ≠ unlistedByte) && rest.all (fun c => decide (a < c.1)) && Memory.wf rest

/-- The canonical cells of a list of bytes laid out from an address on. -/
def Memory.ofBytes (a : Nat) : List Byte → Memory
  | [] => []
  | v :: rest => if v = unlistedByte then Memory.ofBytes (a + 1) rest else (a, v) :: Memory.ofBytes (a + 1) rest

/-! ### The buffer (00 R9, 20 R30) -/

/-- The bit length of the buffer, `8*LEN` (10 R11). -/
def State.bitLen (s : State) : Nat := 8 * s.len

/-- `byte(i)` of 00 R9: `B[i]` if `i < LEN`, else 0. -/
def State.byteAt (s : State) (i : Nat) : Byte := if i < s.len then s.mem.read i else 0#8

/-- `MemRead(addr, n)` of 00 R9: `n` bytes, the first most significant. -/
def State.memRead (s : State) (addr : Nat) : Nat → Nat
  | 0 => 0
  | n + 1 => 256 * s.memRead addr n + (s.byteAt (addr + n)).toNat

/-- Writes the first `k` of the `n` bytes of `v`. -/
def State.memWriteFirst (s : State) (addr n v : Nat) : Nat → State
  | 0 => s
  | k + 1 =>
    let t := s.memWriteFirst addr n v k
    { t with mem := t.mem.write (addr + k) (BitVec.ofNat 8 (v / 2 ^ (8 * (n - 1 - k)))) }

/-- `MemWrite(addr, n, v)` of 00 R9: the `n` bytes of `v mod 2^(8n)`, the most significant to `B[addr]`. It requires
`addr + n <= LEN`. -/
def State.memWrite (s : State) (addr n v : Nat) : State := s.memWriteFirst addr n v n

/-- `BufBit(p)` of 00 R9: bit `7 - p mod 8` of `B[p div 8]` if `p < 8*LEN`, else 0. -/
def State.bufBit (s : State) (p : Nat) : Bool :=
  if p < s.bitLen then (s.mem.read (p / 8)).getLsbD (7 - p % 8) else false

/-- A byte with one bit cleared and then set to `b` (00 R9, `SetBufBit`). -/
def setByteBit (v : Byte) (i : Nat) (b : Bool) : Byte :=
  (v &&& ~~~(BitVec.twoPow 8 i)) ||| (if b then BitVec.twoPow 8 i else 0#8)

/-- `SetBufBit(p, b)` of 00 R9: no other bit changes. It requires `p < 8*LEN`. -/
def State.setBufBit (s : State) (p : Nat) (b : Bool) : State :=
  { s with mem := s.mem.write (p / 8) (setByteBit (s.mem.read (p / 8)) (7 - p % 8) b) }

/-- Writes 0 to `k` bytes from an address on. -/
def Memory.zero (m : Memory) (a : Nat) : Nat → Memory
  | 0 => m
  | k + 1 => (Memory.zero m a k).write (a + k) 0#8

/-- `Grow(k)` of 00 R9: `k` zero bytes, then `LEN <- LEN + k`. It requires `LEN + k <= CAP`. -/
def State.grow (s : State) (k : Nat) : State := { s with mem := s.mem.zero s.len k, len := s.len + k }

/-- The buffer as the list of its `LEN` bytes, `B[0]` first (10 R11). -/
def State.bufferBytes (s : State) : List Byte := (List.range s.len).map s.byteAt

/-- `ceil_div(a, b)` of 00 R8. -/
def ceilDiv (a b : Nat) : Nat := (a + b - 1) / b

/-- `sext_N(v)` of 00 R8: `v mod 2^N` read as an `N`-bit two's-complement number. -/
def sext (n : Nat) (v : Int) : Int :=
  let m := v % 2 ^ n
  if m / 2 ^ (n - 1) % 2 = 1 then m - 2 ^ n else m

/-! ### Codes and the record format (10 R17, R19, 30 R60, R61) -/

/-- The code of `RUN` (10 R17). -/
def RunState.code : RunState → BitVec 2
  | .idle => 0#2
  | .running => 1#2
  | .done => 2#2
  | .fault => 3#2

/-- The code of `FCAUSE` (10 R19, 60 R133). -/
def FaultCause.code : FaultCause → BitVec 2
  | .none => 0#2
  | .illegalCmd => 1#2
  | .capacity => 2#2

/-- The code of the indicator in `OVF`: its 2-bit two's-complement form (30 R61). -/
def Indicator.code : Indicator → BitVec 2
  | .none => 0#2
  | .overflow => 1#2
  | .underflow => 3#2

/-- The indicator as the number 0, 1 or -1 (10 R18). -/
def Indicator.toInt : Indicator → Int
  | .none => 0
  | .overflow => 1
  | .underflow => -1

/-- The 67 bits of a record: `REFUSED ‖ OVF ‖ VALUE` (30 R60). -/
def ResultRecord.pack (r : ResultRecord) : BitVec 67 := BitVec.ofBool r.refused ++ r.ovf.code ++ r.value

/-! ### Registers and the result list -/

/-- `RES.append(r)` of 00 R9. -/
def State.append (s : State) (r : ResultRecord) : State := { s with res := s.res ++ [r] }

/-- `POLICY <- p`. -/
def State.setPolicy (s : State) (p : Policy) : State := { s with policy := p }

/-- `pc <- PC + 1` (42 R111). -/
def State.advance (s : State) : State := { s with pc := s.pc + 1 }

/-- Fault entry (60 R136): `RUN <- FAULT`, `FCAUSE <- cause`, `FIDX <- index`, and nothing else. There is no return
from a fault inside the BFU (60 R137): only `hostStart` and reset leave it. -/
def State.raise (s : State) (cause : FaultCause) (index : Nat) : State :=
  { s with run := .fault, fcause := cause, fidx := index }

/-- `RUN <- DONE`, the step at the end of a batch (42 R110, R119). -/
def State.finish (s : State) : State := { s with run := .done }

/-- Instruction fetch, `CMD[PC]`, one whole entry (20 R32). -/
def State.fetch (s : State) : Option CommandWord := s.cmd[s.pc]?

/-- How a command ends (42 R110): it completes in the state `r` gives, and then `PC <- PC + 1`; or it raises the cause
`r` gives and changes nothing but `RUN`, `FCAUSE` and `FIDX`. -/
def complete (s : State) (r : Except FaultCause State) : Host.Outcome State Fault Refusal :=
  match r with
  | .ok t => .next t.advance
  | .error cause => .next (s.raise cause s.pc)

/-! ### Placing a word to be fetched -/

/-- The batch with `w` at index `i`; entries the batch does not have before `i` are the all-zero word. -/
def placeCommand (w : CommandWord) : Nat → List CommandWord → List CommandWord
  | 0, [] => [w]
  | 0, _ :: rest => w :: rest
  | i + 1, [] => 0#160 :: placeCommand w i []
  | i + 1, c :: rest => c :: placeCommand w i rest

end Sys2Proof.Machine
end

