-- ==== Sys2Proof/Machine/Control.lean ====
section
/-! DEFINITION. The one control instruction, OVERFLOW (42 R118). -/

namespace Sys2Proof.Machine

/-- OVERFLOW: `POLICY <- policy`, no record (42 R118, D11). -/
def execOverflow (policy : Policy) (s : State) : Host.Outcome State Fault Refusal :=
  complete s (.ok (s.setPolicy policy))

end Sys2Proof.Machine
end

