-- ==== Sys2Proof/Machine/Flags.lean ====
section
/-! DEFINITION. Overflow arithmetic (41_overflow_arith.md): field ranges, the overflow detector and the
wrapping/saturating adder. Every comparison and sum is over the integers (41, 00 R8, D17).

DESIGN CHOICE (log entry 18): the units have a meaning at a legal field type only (93 U3). At any other type a function of
this file gives what its formula happens to give, which is the model's value and not the spec's. -/

namespace Sys2Proof.Machine

/-- `min` of 41 R91. -/
def fieldMin (ty : FieldType) : Int :=
  match ty.sign with
  | .unsigned => 0
  | .signed => -2 ^ (ty.width - 1)

/-- `max` of 41 R91. -/
def fieldMax (ty : FieldType) : Int :=
  match ty.sign with
  | .unsigned => 2 ^ ty.width - 1
  | .signed => 2 ^ (ty.width - 1) - 1

/-- `ovf` of 41 R92 and R93. -/
def overflows (ty : FieldType) (cur incr : Int) : Bool :=
  let max := fieldMax ty
  match ty.sign with
  | .unsigned => decide (cur > max ∨ (incr > 0 ∧ incr > max - cur))
  | .signed =>
    let maxincr := max - cur
    decide (cur > max ∨ (ty.width < 64 ∧ incr > maxincr) ∨ (cur ≥ 0 ∧ incr > 0 ∧ incr > maxincr))

/-- `unf` of 41 R92 and R93. -/
def underflows (ty : FieldType) (cur incr : Int) : Bool :=
  match ty.sign with
  | .unsigned => decide (incr < 0 ∧ incr < -cur)
  | .signed =>
    let minincr := fieldMin ty - cur
    decide (cur < fieldMin ty ∨ (ty.width < 64 ∧ incr < minincr) ∨ (cur < 0 ∧ incr < 0 ∧ incr < minincr))

/-- `Detect(cur, incr, w, s)`: overflow is tested first (41 R94). -/
def detect (ty : FieldType) (cur incr : Int) : Indicator :=
  if overflows ty cur incr then .overflow else if underflows ty cur incr then .underflow else .none

/-- The value an out-of-range sum gets under wrap and fail (41 R97, R98): the low `w` bits, sign-extended at the
field's own width for a signed field only (93 U9). -/
def wrapSum (ty : FieldType) (sum : Int) : Int :=
  match ty.sign with
  | .unsigned => sum % 2 ^ ty.width
  | .signed => sext ty.width (sum % 2 ^ 64 % 2 ^ ty.width)

/-- The value it gets under saturate (41 R99). -/
def clampTo (ty : FieldType) : Indicator → Int → Int
  | .none, sum => sum
  | .overflow, _ => fieldMax ty
  | .underflow, _ => fieldMin ty

/-- `Add(cur, incr, w, s, pol, ind)` of 41 R96 to R100. -/
def addUnder (ty : FieldType) (pol : Policy) (ind : Indicator) (cur incr : Int) : Int :=
  match ind, pol with
  | .none, _ => cur + incr
  | ind, .saturate => clampTo ty ind (cur + incr)
  | _, .wrap => wrapSum ty (cur + incr)
  | _, .fail => wrapSum ty (cur + incr)

/-- How the `cur` port is read: `s64` for a signed field, `u64` for an unsigned one (41 R90, D17). -/
def readPort (sign : Signedness) (v : Value) : Int :=
  match sign with
  | .signed => v.toInt
  | .unsigned => v.toNat

/-- `Compute(cur, incr, w, s, pol) -> (new, ind)` of 41 R90, on its two 64-bit ports. -/
def compute (ty : FieldType) (pol : Policy) (cur incr : Value) : Int × Indicator :=
  let c := readPort ty.sign cur
  let ind := detect ty c incr.toInt
  (addUnder ty pol ind c incr.toInt, ind)

end Sys2Proof.Machine
end

