-- ==== Sys2Proof/Machine/Operands.lean ====
section
/-! DEFINITION. The operand forms: the effective address (42 R112) and the bit codec (40_bit_codec.md): extractor,
sign-extend unit, field read and inserter, with the barrel-shifter forms of 40 R71 and R75.

DESIGN CHOICE (log entry 18): the units have a meaning at the widths of a legal field type only (40 R76, 93 U3). A function
of this file is total, so at any other width it gives what its formula happens to give: that value is the model's, not the
spec's, no instruction reaches it, and no statement speaks of it. -/

namespace Sys2Proof.Machine

/-- `EA(e, w, offset)` of 42 R112, formed in full and never truncated. -/
def effectiveAddress (ty : FieldType) : Offset → Nat
  | .absolute n => n.toNat
  | .element n => n.toNat * ty.width

/-! ### The extractor -/

/-- The loop of 40 R70 after its first `w` turns: each turn shifts one bit in, most significant first. Outside 1 to 64 turns
the value is the model's choice (log entry 18). -/
def shiftIn (s : State) (off : Nat) : Nat → Nat
  | 0 => 0
  | w + 1 => 2 * shiftIn s off w + (s.bufBit (off + w)).toNat

/-- `Extract(off, w)` of 40 R70, with its read guard, at the widths 1 to 64 of 40 R76. DESIGN CHOICE (log entry 18): at any
other width, where 93 U3 leaves the unit without a meaning, it gives what the loop gives (0 at width 0). -/
def extract (s : State) (off w : Nat) : Nat := if off > s.bitLen then 0 else shiftIn s off w

/-- The barrel-shifter form of the extractor (40 R71): a window of 9 bytes, one shift, one truncation. -/
def extractBarrel (s : State) (off w : Nat) : Nat :=
  if off > s.bitLen then 0 else (s.memRead (off / 8) 9 >>> (72 - off % 8 - w)) % 2 ^ w

/-! ### The sign-extend unit and the field read -/

/-- `SignExt(raw, w, s)` of 40 R72; the negative branch is written in its `raw - 2^w` form. -/
def signExt (ty : FieldType) (raw : Nat) : Int :=
  match ty.sign with
  | .signed => if raw.testBit (ty.width - 1) then (raw : Int) - 2 ^ ty.width else raw
  | .unsigned => raw

/-- `FieldRead(off, w, s)` of 40 R73. -/
def fieldRead (s : State) (off : Nat) (ty : FieldType) : Int := signExt ty (extract s off ty.width)

/-! ### The inserter -/

/-- The loop of 40 R74 after its first `k` turns: turn `i` sets position `off + i` to bit `w-1-i` of `v`. -/
def writeBits (off w v : Nat) (s : State) : Nat → State
  | 0 => s
  | k + 1 => (writeBits off w v s k).setBufBit (off + k) (v.testBit (w - 1 - k))

/-- The growth `g` of a write that passes the guard (20 R39); 0 where the field ends inside the buffer. -/
def growthOf (s : State) (off w : Nat) : Nat := ceilDiv (off + w - s.bitLen) 8

/-- The output of the inserter (40 R74): "the updated buffer, and whether it wrote". -/
structure WriteOutput where
  /-- The state with the updated buffer. -/
  state : State
  /-- Whether it wrote: false for the guarded no-op, true for every other write that raises nothing. -/
  wrote : Bool
  deriving DecidableEq, Repr

/-- The guard, the capacity check and the growth of 40 R74, followed by whatever writes the field's bits. -/
def writeGuarded (s : State) (off w : Nat) (put : State → State) : Except FaultCause WriteOutput :=
  if off > s.bitLen then .ok { state := s, wrote := false }
  else if off + w > s.bitLen then
    if s.cfg.cap.fits (s.len + growthOf s off w) then
      .ok { state := put (s.grow (growthOf s off w)), wrote := true }
    else .error .capacity
  else .ok { state := put s, wrote := true }

/-- The low `w` bits of a value, `val mod 2^w` (40 R74). -/
def lowBits (w : Nat) (val : Int) : Nat := (val % 2 ^ w).toNat

/-- `FieldWrite(off, w, val)` of 40 R74, with both its outputs. SET and INCRBY use the first only: they report the same
whether it wrote or not (42 R114 (a), R117). -/
def fieldWrite (s : State) (off w : Nat) (val : Int) : Except FaultCause WriteOutput :=
  writeGuarded s off w (fun t => writeBits off w (lowBits w val) t w)

/-- The window of 40 R75 with the field merged in. -/
def mergeWindow (win : Nat) (pos w v : Nat) : BitVec 72 :=
  (BitVec.ofNat 72 win &&& ~~~(BitVec.ofNat 72 (2 ^ w - 1) <<< pos)) ||| (BitVec.ofNat 72 v <<< pos)

/-- Writes the first `k` bytes of a window back, those at an index below `LEN` (40 R75). -/
def writeBack (a : Nat) (win : BitVec 72) (s : State) : Nat → State
  | 0 => s
  | k + 1 =>
    let t := writeBack a win s k
    if a + k < t.len then { t with mem := t.mem.write (a + k) (win.extractLsb' (8 * (8 - k)) 8) } else t

/-- The merge form of the inserter (40 R75). -/
def fieldWriteMerge (s : State) (off w : Nat) (val : Int) : Except FaultCause WriteOutput :=
  writeGuarded s off w (fun t =>
    writeBack (off / 8) (mergeWindow (t.memRead (off / 8) 9) (72 - off % 8 - w) w (lowBits w val)) t 9)

end Sys2Proof.Machine
end

