-- ==== Sys2Proof/Machine/FieldOps.lean ====
section
/-! DEFINITION. The instructions on fields: GET (42 R113), SET (42 R114) and INCRBY (42 R115 to R117). -/

namespace Sys2Proof.Machine

/-- The units have no meaning at a width outside the legal ones: `refuse` (93 U3, log entry 10). -/
def withLegalType (ty : FieldType) (run : Host.Outcome State Fault Refusal) : Host.Outcome State Fault Refusal :=
  if ty.legal then run else .refused .widthUndefined

/-- The record of GET and SET: `REFUSED = 0`, `OVF = 0`, `VALUE = v mod 2^64` (30 R60). -/
def plainRecord (v : Int) : ResultRecord := { refused := false, ovf := .none, value := BitVec.ofInt 64 v }

/-- GET (42 R113). -/
def execGet (ty : FieldType) (off : Offset) (s : State) : Host.Outcome State Fault Refusal :=
  withLegalType ty (complete s (.ok (s.append (plainRecord (fieldRead s (effectiveAddress ty off) ty)))))

/-- SET (42 R114): the old value is read before the write. -/
def execSet (ty : FieldType) (off : Offset) (value : Value) (s : State) : Host.Outcome State Fault Refusal :=
  let ea := effectiveAddress ty off
  let old := fieldRead s ea ty
  withLegalType ty (complete s ((fieldWrite s ea ty.width value.toInt).map (fun r => r.state.append (plainRecord old))))

/-- What INCRBY computes: `Compute` on the field's current value under the `POLICY` register (42 R115). -/
def incrbyCompute (ty : FieldType) (ea : Nat) (increment : Value) (s : State) : Int × Indicator :=
  compute ty s.policy (BitVec.ofInt 64 (fieldRead s ea ty)) increment

/-- The refusal test of 42 R115, made before any write. -/
def refuses (pol : Policy) (ind : Indicator) : Bool := decide (pol = .fail ∧ ind ≠ .none)

/-- INCRBY (42 R115): refusal or write, the record, and `POLICY <- wrap` (42 R116). -/
def execIncrby (ty : FieldType) (off : Offset) (increment : Value) (s : State) :
    Host.Outcome State Fault Refusal :=
  let ea := effectiveAddress ty off
  let result := incrbyCompute ty ea increment s
  withLegalType ty (complete s
    (if refuses s.policy result.2 then
      .ok ((s.append { refused := true, ovf := result.2, value := 0#64 }).setPolicy .wrap)
    else
      (fieldWrite s ea ty.width result.1).map (fun r =>
        (r.state.append { refused := false, ovf := result.2, value := BitVec.ofInt 64 result.1 }).setPolicy .wrap)))

end Sys2Proof.Machine
end

