-- ==== Sys2Proof/Machine/Dispatch.lean ====
section
/-! DEFINITION. One arm per instruction: each is one call of its meaning. -/

namespace Sys2Proof.Machine

def exec (i : Instr) (s : State) : Host.Outcome State Fault Refusal :=
  match i with
  | .get ty off => Sys2Proof.Machine.execGet ty off s
  | .set ty off value => Sys2Proof.Machine.execSet ty off value s
  | .incrby ty off increment => Sys2Proof.Machine.execIncrby ty off increment s
  | .overflow policy => Sys2Proof.Machine.execOverflow policy s

end Sys2Proof.Machine
end

