-- ==== Sys2Proof/Machine/Sequencer.lean ====
section
/-! DEFINITION. The sequencer (42 R110): what one step does, and how an instruction is placed where it fetches. -/

namespace Sys2Proof.Machine

/-- The step on a fetched word: the instruction's effect, or the ILLEGAL_CMD entry that 42 R110 allows for a word that
pre-validation would have rejected (log entry 6). -/
def executeWord (s : State) (c : CommandWord) : Host.Outcome State Fault Refusal :=
  match decode c with
  | .ok i => exec i s
  | .error _ => .next (s.raise .illegalCmd s.pc)

/-- The step while `RUN = RUNNING` (42 R110): the end of the batch, or one command. -/
def runningStep (s : State) : Host.Outcome State Fault Refusal :=
  if s.pc = s.ncmd then .next s.finish
  else match s.fetch with
    | some c => executeWord s c
    | none => .fault .pcOutsideBatch

/-- `Step` of 42 R110. The sequencer has a step exactly when `RUN = RUNNING`. -/
def sequencerStep (s : State) : Host.Outcome State Fault Refusal :=
  if s.run = .running then runningStep s else .fault (.notRunning s.run)

/-- `s` with a command at `CMD[PC]` and `RUN = RUNNING`. -/
def State.withCommandAtPc (s : State) (c : CommandWord) : State :=
  { s with cmd := placeCommand c s.pc s.cmd, run := .running }

end Sys2Proof.Machine
end

