-- ==== Sys2Proof/Machine/Step.lean ====
section
/-! DEFINITION. The step of the machine, and the placing of one instruction where it fetches. -/

namespace Sys2Proof.Machine

/-- One step of the BFU (42 R110). -/
def step (s : State) : Host.Outcome State Fault Refusal := sequencerStep s

/-- `s` with the table's word placed where the next step fetches and runs it. It stands for the host's load and start
of a batch (70 R155, R156; log entry 9). -/
def State.withFetchWord (s : State) (nbits w : Nat) : State := s.withCommandAtPc (tableWord nbits w)

end Sys2Proof.Machine
end

