-- ==== Sys2Proof/Machine/Assembler.lean ====
section
/-! DEFINITION. The toolchain contract that produces command words from text (30 R62 to R67). It is outside the
hardware (00 R3 (a)): no step uses it. -/

namespace Sys2Proof.Machine

/-- One token of the text. -/
abbrev Token := List Char

/-- Why no batch is produced, with the token at fault (30 R62 to R67). -/
inductive AsmError where
  /-- The token is none of the four keywords, in capitals (30 R62, log entry 14). -/
  | unknownKeyword (t : Token)
  /-- A sub-operation with too few tokens (30 R62). -/
  | missingArguments (keyword : Token)
  /-- Not a `type` token (30 R63). -/
  | badType (t : Token)
  /-- Not an `offset` token, or a number above `2^64 - 1` (30 R64). -/
  | badOffset (t : Token)
  /-- Not a signed 64-bit literal (30 R65). -/
  | badNumber (t : Token)
  /-- Not a `policy` token (30 R66). -/
  | badPolicy (t : Token)
  deriving DecidableEq, Repr

/-- White space between tokens (30 R62). -/
def isSeparator (c : Char) : Bool := c = ' ' || c = '\t' || c = '\n' || c = '\r'

/-- Puts a character in front of the first token of a list of tokens. -/
def consToken (c : Char) : List Token → List Token
  | [] => [[c]]
  | t :: ts => (c :: t) :: ts

/-- The pieces between separators, empty ones included. -/
def splitPieces : List Char → List Token
  | [] => [[]]
  | c :: rest => if isSeparator c then [] :: splitPieces rest else consToken c (splitPieces rest)

/-- The tokens of a text (30 R62). -/
def tokens (text : List Char) : List Token := (splitPieces text).filter (fun t => !t.isEmpty)

/-- A decimal digit (30 R65, D26). -/
def digitOf (c : Char) : Option Nat := if '0' ≤ c ∧ c ≤ '9' then some (c.toNat - '0'.toNat) else none

/-- Decimal digits read after a number already read. -/
def digitsAfter (n : Nat) : List Char → Option Nat
  | [] => some n
  | c :: rest =>
    match digitOf c with
    | some d => digitsAfter (10 * n + d) rest
    | none => none

/-- A plain non-negative integer: one or more decimal digits. -/
def naturalOf : Token → Option Nat
  | [] => none
  | c :: rest => digitsAfter 0 (c :: rest)

/-- The letter of a `type` token (30 R63). -/
def signLetterOf (c : Char) : Option Signedness :=
  if c = 'u' then some .unsigned else if c = 'i' then some .signed else none

/-- The digits of a `type` token: one or two, the first not `0` (30 R63). -/
def widthDigitsOf : List Char → Option Nat
  | [d] => if d = '0' then none else naturalOf [d]
  | [d, e] => if d = '0' then none else naturalOf [d, e]
  | _ => none

/-- A `type` token: `^[ui][1-9][0-9]?$`, with `u` at most 63 and `i` at most 64 (30 R63). -/
def typeToken : Token → Option FieldType
  | [] => none
  | c :: digits =>
    match signLetterOf c, widthDigitsOf digits with
    | some sign, some w =>
      let ty : FieldType := { sign := sign, width := w }
      if ty.legal then some ty else none
    | _, _ => none

/-- A number that fits `OFFSET` (30 R64, D15). -/
def offsetNumber (t : Token) : Option (BitVec 64) :=
  match naturalOf t with
  | some n => if n < 2 ^ 64 then some (BitVec.ofNat 64 n) else none
  | none => none

/-- An `offset` token: a number, or `#` and a number (30 R64). -/
def offsetToken : Token → Option Offset
  | [] => none
  | c :: rest =>
    if c = '#' then (offsetNumber rest).map .element else (offsetNumber (c :: rest)).map .absolute

/-- A `value` or `increment` token: a signed 64-bit decimal literal (30 R65). -/
def numberToken : Token → Option Value
  | [] => none
  | c :: rest =>
    if c = '-' then
      match naturalOf rest with
      | some n => if n ≤ 2 ^ 63 then some (BitVec.ofInt 64 (-(n : Int))) else none
      | none => none
    else
      match naturalOf (c :: rest) with
      | some n => if n < 2 ^ 63 then some (BitVec.ofNat 64 n) else none
      | none => none

/-- A `policy` token: `wrap`, `sat` or `fail` in any mix of cases (30 R66). -/
def policyToken (t : Token) : Option Policy :=
  let lower := t.map Char.toLower
  if lower = ['w', 'r', 'a', 'p'] then some .wrap
  else if lower = ['s', 'a', 't'] then some .saturate
  else if lower = ['f', 'a', 'i', 'l'] then some .fail
  else none

/-- The value of a token, or the error it stands for. -/
def expect {α : Type} (error : AsmError) : Option α → Except AsmError α
  | some a => .ok a
  | none => .error error

/-- `GET type offset` (30 R62). -/
def parseGet (t o : Token) : Except AsmError Instr := do
  let ty ← expect (.badType t) (typeToken t)
  let off ← expect (.badOffset o) (offsetToken o)
  return .get ty off

/-- `SET type offset value` (30 R62). -/
def parseSet (t o v : Token) : Except AsmError Instr := do
  let ty ← expect (.badType t) (typeToken t)
  let off ← expect (.badOffset o) (offsetToken o)
  let value ← expect (.badNumber v) (numberToken v)
  return .set ty off value

/-- `INCRBY type offset increment` (30 R62). -/
def parseIncrby (t o n : Token) : Except AsmError Instr := do
  let ty ← expect (.badType t) (typeToken t)
  let off ← expect (.badOffset o) (offsetToken o)
  let increment ← expect (.badNumber n) (numberToken n)
  return .incrby ty off increment

/-- `OVERFLOW policy` (30 R62). -/
def parseOverflow (p : Token) : Except AsmError Instr := do
  let policy ← expect (.badPolicy p) (policyToken p)
  return .overflow policy

/-- The sub-operations of a token list, in the order written (30 R62). -/
def parseOps : List Token → Except AsmError (List Instr)
  | [] => .ok []
  | keyword :: rest =>
    if keyword = ['G', 'E', 'T'] then
      match rest with
      | t :: o :: more => do return (← parseGet t o) :: (← parseOps more)
      | _ => .error (.missingArguments keyword)
    else if keyword = ['S', 'E', 'T'] then
      match rest with
      | t :: o :: v :: more => do return (← parseSet t o v) :: (← parseOps more)
      | _ => .error (.missingArguments keyword)
    else if keyword = ['I', 'N', 'C', 'R', 'B', 'Y'] then
      match rest with
      | t :: o :: n :: more => do return (← parseIncrby t o n) :: (← parseOps more)
      | _ => .error (.missingArguments keyword)
    else if keyword = ['O', 'V', 'E', 'R', 'F', 'L', 'O', 'W'] then
      match rest with
      | p :: more => do return (← parseOverflow p) :: (← parseOps more)
      | _ => .error (.missingArguments keyword)
    else .error (.unknownKeyword keyword)

/-- The batch a program assembles to; any error means no batch at all (30 R67). -/
def assemble (text : List Char) : Except AsmError (List CommandWord) :=
  (parseOps (tokens text)).map (fun ops => ops.map encode)

end Sys2Proof.Machine
end

