-- ==== Sys2Proof/Machine/HostPort.lean ====
section
/-! DEFINITION. What the host can do (70 R150, R153 to R157): reset, the three writing actions and the three reads. -/

namespace Sys2Proof.Machine

/-- The reset event (70 R150): every element to its value of 10 R22, from any state. The parameters are not state and
stay (log entry 1). -/
def resetEvent (s : State) : State := State.resetWith s.cfg

/-- `HostLoadBuffer(bytes)` (70 R154): ignored while running (R153), refused whole when longer than `CAP`. -/
def hostLoadBuffer (bytes : List Byte) (s : State) : State :=
  if s.run = .running then s
  else if s.cfg.cap.fits bytes.length then { s with mem := Memory.ofBytes 0 bytes, len := bytes.length }
  else s

/-- `HostLoadBatch(words)` (70 R155): ignored while running, refused whole when longer than `QCAP`. It validates
nothing and touches neither `PC` nor the results (log entry 7). -/
def hostLoadBatch (words : List CommandWord) (s : State) : State :=
  if s.run = .running then s
  else if s.cfg.qcap.fits words.length then { s with cmd := words }
  else s

/-- The least index of a word that is not legal (30 R58), if there is one. -/
def firstIllegal (words : List CommandWord) : Option Nat := words.findIdx? (fun c => !legal c)

/-- The first line of `HostStart` (70 R156): the fault registers, `PC` and the results are cleared. -/
def State.clearRun (s : State) : State := { s with fcause := .none, fidx := 0, pc := 0, res := [] }

/-- `HostStart` (70 R156): ignored while running; otherwise clear, validate the whole batch, and run or enter the
ILLEGAL_CMD fault at the least illegal index (60 R131). -/
def hostStart (s : State) : State :=
  if s.run = .running then s
  else match firstIllegal s.cmd with
    | some i => s.clearRun.raise .illegalCmd i
    | none => { s.clearRun with run := .running }

/-- The six host actions of 70 R153. -/
inductive HostAction where
  | loadBuffer (bytes : List Byte)
  | loadBatch (words : List CommandWord)
  | start
  | readStatus
  | readResults
  | readBuffer
  deriving DecidableEq, Repr

/-- What the host gets back (70 R153). -/
inductive HostReply where
  /-- The actions that return nothing. -/
  | nothing
  /-- `HostReadStatus`: `RUN`, `FCAUSE`, `FIDX`, `PC`, `NCMD`, `POLICY`. -/
  | status (run : RunState) (fcause : FaultCause) (fidx pc ncmd : Nat) (policy : Policy)
  /-- `HostReadResults`: `RCNT` and `RES[0..RCNT-1]`. -/
  | results (rcnt : Nat) (res : List ResultRecord)
  /-- `HostReadBuffer`: `LEN` and `B[0..LEN-1]`. -/
  | buffer (len : Nat) (bytes : List Byte)
  /-- A buffer or result read attempted while running: any value, so the reply carries none (93 U7, log entry 8). -/
  | anyValue
  deriving DecidableEq, Repr

/-- What an action changes. The reads change nothing (70 R157). -/
def hostEffect : HostAction → State → State
  | .loadBuffer bytes, s => hostLoadBuffer bytes s
  | .loadBatch words, s => hostLoadBatch words s
  | .start, s => hostStart s
  | .readStatus, s => s
  | .readResults, s => s
  | .readBuffer, s => s

/-- What the host gets back from an action attempted in a state. A refused or ignored load or start returns nothing,
as the table of 70 R153 has it (log entry 15). -/
def hostReply : HostAction → State → HostReply
  | .loadBuffer _, _ => .nothing
  | .loadBatch _, _ => .nothing
  | .start, _ => .nothing
  | .readStatus, s => .status s.run s.fcause s.fidx s.pc s.ncmd s.policy
  | .readResults, s => if s.run = .running then .anyValue else .results s.rcnt s.res
  | .readBuffer, s => if s.run = .running then .anyValue else .buffer s.len s.bufferBytes

end Sys2Proof.Machine
end

