-- ==== Sys2Proof/Machine/Pins.lean ====
section
/-! DEFINITION. The pin-level binding of the host actions (70 R159): what one rising edge of `clk` does with `rst` and
the strobes, and the outputs as functions of the state and the read addresses. The commands' own progress from edge to
edge has no timing in the spec (70 R163): it is `step` (log entries 12 and 13). -/

namespace Sys2Proof.Machine

/-- The strobe of an edge: the host raises at most one (70 R159). -/
inductive Strobe where
  | none
  | bufClear
  | bufPush (wdata : Byte)
  | cmdClear
  | cmdPush (wdata : CommandWord)
  | start
  deriving DecidableEq, Repr

/-- What a strobe does while the BFU is not running (70 R159). A push is dropped when the store is full, `LEN < CAP`
and `NCMD < QCAP` failing. -/
def strobeEffect : Strobe → State → State
  | .none, s => s
  | .bufClear, s => { s with mem := [], len := 0 }
  | .bufPush b, s =>
    if s.cfg.cap.fits (s.len + 1) then { s with mem := s.mem.write s.len b, len := s.len + 1 } else s
  | .cmdClear, s => { s with cmd := [] }
  | .cmdPush w, s => if s.cfg.qcap.fits (s.ncmd + 1) then { s with cmd := s.cmd ++ [w] } else s
  | .start, s => hostStart s

/-- What `rst` and the strobe of one edge do: reset is synchronous and active high, and a strobe acts only if
`RUN != RUNNING` at that edge and `rst` is low (70 R159). -/
def pinEdge (rst : Bool) (strobe : Strobe) (s : State) : State :=
  if rst then resetEvent s else if s.run = .running then s else strobeEffect strobe s

/-- The outputs of 70 R159. -/
structure PinOutputs where
  bufRdata : Byte
  bufLen : Nat
  resRdata : BitVec 67
  resCount : Nat
  runState : BitVec 2
  done : Bool
  fault : Bool
  fcause : BitVec 2
  fidx : Nat
  pc : Nat
  ncmd : Nat
  policy : BitVec 2
  deriving DecidableEq, Repr

/-- The outputs as functions of the state and the two read addresses (70 R159, 60 R139). -/
def pinOutputs (bufRaddr resRaddr : Nat) (s : State) : PinOutputs :=
  { bufRdata := s.byteAt bufRaddr
    bufLen := s.len
    resRdata := match s.res[resRaddr]? with
      | some r => r.pack
      | none => 0#67
    resCount := s.rcnt
    runState := s.run.code
    done := decide (s.run = .done)
    fault := decide (s.run = .fault)
    fcause := s.fcause.code
    fidx := s.fidx
    pc := s.pc
    ncmd := s.ncmd
    policy := BitVec.ofNat 2 s.policy.code }

end Sys2Proof.Machine
end

