-- ==== Sys2Proof/Safety.lean ====
section
/-! DEFINITION. The terms claims use: when a write fits the buffer memory, the invariant of the machine, and which
states a BFU can reach by steps, host actions and resets. -/

namespace Sys2Proof.Machine

/-- A write of `w` bits at `off` raises no CAPACITY fault: it is guarded, or it does not grow, or the grown buffer
fits `CAP` (20 R38 to R40). -/
abbrev WriteFits (s : State) (off w : Nat) : Prop :=
  off > s.bitLen ∨ off + w ≤ s.bitLen ∨ s.cfg.cap.fits (s.len + growthOf s off w) = true

/-- How many result records the commands of a list append: one for each that is not OVERFLOW (42 R120). -/
def recordsOf (words : List CommandWord) : Nat := words.countP (fun c => fieldOp c != 4#4)

/-- A result record has one of the forms of 30 R60: a refusal carries the value 0 and an indicator that is not 0. -/
abbrev ResultRecord.proper (r : ResultRecord) : Prop := r.refused = true → r.value = 0#64 ∧ r.ovf ≠ .none

/-- The invariant of the BFU. -/
structure StateInv (s : State) : Prop where
  /-- The memory is in its canonical form. -/
  canonical : s.mem.wf = true
  /-- Nothing at an index of `LEN` or more is held (10 R11, R21). -/
  inside : ∀ c ∈ s.mem, c.1 < s.len
  /-- `LEN <= CAP` (10 R11). -/
  lenFits : s.cfg.cap.fits s.len = true
  /-- `NCMD <= QCAP` (10 R13). -/
  batchFits : s.cfg.qcap.fits s.ncmd = true
  /-- `PC <= QCAP` (10 R15: it is wide enough to hold `QCAP`). -/
  pcFits : s.cfg.qcap.fits s.pc = true
  /-- `RCNT <= QCAP` (10 R16: the list cannot overflow). -/
  resFits : s.cfg.qcap.fits s.rcnt = true
  /-- `PC <= NCMD` while a batch runs (10 R15; log entry 7 says why not always). -/
  runningPc : s.run = .running → s.pc ≤ s.ncmd
  /-- A running batch holds legal words only (70 R156, 20 R44). -/
  runningLegal : s.run = .running → ∀ c ∈ s.cmd, legal c = true
  /-- While a batch runs, one record stands for each completed command that is not OVERFLOW (42 R120). -/
  runningRecords : s.run = .running → s.rcnt = recordsOf (s.cmd.take s.pc)
  /-- Every record has one of the forms of 30 R60. -/
  records : ∀ r ∈ s.res, r.proper
  /-- While `RUN != FAULT`, `FCAUSE = 0` and `FIDX = 0` (10 R19). -/
  noFault : s.run ≠ .fault → s.fcause = .none ∧ s.fidx = 0
  /-- `RUN = FAULT` names a cause (60 R136). -/
  someFault : s.run = .fault → s.fcause ≠ .none
  /-- A CAPACITY fault points at the command where the batch stopped (60 R132). -/
  capacityAtPc : s.fcause = .capacity → s.fidx = s.pc
  /-- After ILLEGAL_CMD nothing has executed: `PC = 0` and `RCNT = 0` (60 R131). -/
  illegalAtStart : s.fcause = .illegalCmd → s.pc = 0 ∧ s.res = []
  /-- Before the first start, `PC = 0` and `RCNT = 0` (10 R17, R22). -/
  idleAtStart : s.run = .idle → s.pc = 0 ∧ s.res = []

/-- What can happen to a BFU: a step of the sequencer, a host action, or reset. -/
inductive Event where
  | sequencer
  | host (a : HostAction)
  | reset
  deriving DecidableEq, Repr

/-- The state after an event, if the event can happen. -/
def Event.apply : Event → State → Option State
  | .sequencer, s =>
    match step s with
    | .next t => some t
    | .fault _ => none
    | .refused _ => none
  | .host a, s => some (hostEffect a s)
  | .reset, s => some (resetEvent s)

/-- The states a BFU can reach from reset, whatever its parameters and whatever the host does. -/
inductive Reachable : State → Prop
  | reset (cfg : Config) : Reachable (State.resetWith cfg)
  | event {s t : State} (e : Event) : Reachable s → e.apply s = some t → Reachable t

/-- A run has ended (42 R119). -/
abbrev State.ended (s : State) : Prop := s.run = .done ∨ s.run = .fault

/-- Two states an observer of the buffer's `LEN` bytes and of every register cannot tell apart (10 R21): they differ at
most in the cells of bytes that are not state. -/
abbrev SameVisible (s t : State) : Prop := t = { s with mem := t.mem } ∧ ∀ a, t.byteAt a = s.byteAt a

/-- `INCRBY` is refused in `s` (42 R115). -/
abbrev IncrbyRefused (ty : FieldType) (off : Offset) (increment : Value) (s : State) : Prop :=
  refuses s.policy (incrbyCompute ty (effectiveAddress ty off) increment s).2 = true

/-- Instructions executed one after another; `none` if one answers no next state. -/
def execAll : List Instr → State → Option State
  | [], s => some s
  | i :: rest, s =>
    match exec i s with
    | .next t => execAll rest t
    | .fault _ => none
    | .refused _ => none

/-- GET or SET: the instructions that neither read nor write `POLICY` (10 R12). -/
abbrev GetOrSet (i : Instr) : Prop := (∃ ty off, i = .get ty off) ∨ (∃ ty off value, i = .set ty off value)

/-- A byte address the field at `off` of `w` bits does not touch (20 R34). -/
abbrev OutsideField (off w a : Nat) : Prop := a < off / 8 ∨ (off + w - 1) / 8 < a

end Sys2Proof.Machine
end

