-- ==== Sys2Proof/Certificates/Slice0/Obligations.lean ====
section
/-! DEFINITION. The statements for the provers. Each docstring names the rule of spec/ it formalises; where a statement
rests on a decision of the spec (`D<n>` of 92_eei_decisions.md) or on a derived rule, it says so. -/

open Sys2Proof Sys2Proof.Machine

/-! ### Encoding -/

/-- Words of 95_test_vectors.md, table E, decode to the instructions they spell. Decisions D5 to D8. -/
def Obligations.SpecWordsDecode : Prop :=
  decodeTableWord 160 0x1001000000000000000000000000000000000000 = some (.get ⟨.unsigned, 1⟩ (.absolute 0)) ∧
  decodeTableWord 160 0x1340000000000000000000030000000000000000 = some (.get ⟨.signed, 64⟩ (.element 3)) ∧
  decodeTableWord 160 0x2208000000000000000000010000000000000027 =
    some (.set ⟨.unsigned, 8⟩ (.element 1) 39) ∧
  decodeTableWord 160 0x310500000000000000000006FFFFFFFFFFFFFFFF =
    some (.incrby ⟨.signed, 5⟩ (.absolute 6) (BitVec.ofInt 64 (-1))) ∧
  decodeTableWord 160 0x4000020000000000000000000000000000000000 = some (.overflow .fail)

/-- Decode and encode are a bijection between the legal words and the well-formed instructions. 30_encoding.md
sections 1 and 2, decision D6 and the derivation there. -/
def Obligations.DecodeEncodeInverse : Prop :=
  (∀ i : Instr, i.wellFormed = true → decode (encode i) = .ok i) ∧
  (∀ (c : CommandWord) (i : Instr), decode c = .ok i → i.wellFormed = true ∧ encode i = c)

/-- The decoder refuses exactly the illegal words, and reads each operand of a legal one from its field. 30_encoding.md
sections 1 and 2, decisions D5 to D8. -/
def Obligations.DecodeReadsEachField : Prop :=
  ∀ c : CommandWord,
    (legal c = false ↔ ∃ e, decode c = .error e) ∧
    (legal c = true →
      (fieldOp c = 1#4 → decode c = .ok (.get (typeOf c) (offsetOf (fieldE c) (fieldOffset c)))) ∧
      (fieldOp c = 2#4 →
        decode c = .ok (.set (typeOf c) (offsetOf (fieldE c) (fieldOffset c)) (fieldOperand c))) ∧
      (fieldOp c = 3#4 →
        decode c = .ok (.incrby (typeOf c) (offsetOf (fieldE c) (fieldOffset c)) (fieldOperand c))) ∧
      (fieldOp c = 4#4 → ∃ p : Policy, p.code = (fieldPol c).toNat ∧ decode c = .ok (.overflow p)))

/-- The legal words are those some row of the opcode map matches, and no word matches two rows. 30_encoding.md section 2,
decision D6; opcode_table.json. -/
def Obligations.LegalMatchesOpcodeTable : Prop :=
  ∀ c : CommandWord,
    (legal c = opcodeTable.any (fun r => r.matches c)) ∧
    opcodeTable.Pairwise (fun a b => ¬(a.matches c = true ∧ b.matches c = true))

/-- The 67 bits of a result record hold `REFUSED`, `OVF` and `VALUE` at 66, 65:64 and 63:0, no record has `OVF = 2`,
and two records with the same bits are equal. 30_encoding.md section 3, decision D10. -/
def Obligations.RecordBitsHoldTheRecord : Prop :=
  (∀ r : ResultRecord,
    r.pack.extractLsb' 66 1 = BitVec.ofBool r.refused ∧ r.pack.extractLsb' 64 2 = r.ovf.code ∧
    r.pack.extractLsb' 0 64 = r.value ∧ r.ovf.code ≠ 2#2 ∧ r.ovf.code.toInt = r.ovf.toInt) ∧
  (∀ r q : ResultRecord, r.pack = q.pack → r = q)

/-! ### The bit codec -/

/-- R70: at every width of a field, 1 to 64, the extractor gives the weighted sum of the field's bits, below `2^w`; past the
end and in an empty buffer it gives 0. -/
def Obligations.ExtractIsTheSumOfItsBits : Prop :=
  ∀ (s : State) (off w : Nat), 1 ≤ w → w ≤ 64 →
    extract s off w = (if off > s.bitLen then 0
      else ∑ i ∈ Finset.range w, (s.bufBit (off + i)).toNat * 2 ^ (w - 1 - i)) ∧
    extract s off w = ∑ i ∈ Finset.range w, (s.bufBit (off + i)).toNat * 2 ^ (w - 1 - i) ∧
    extract s off w < 2 ^ w ∧
    (s.bitLen ≤ off → extract s off w = 0) ∧
    (s.len = 0 → extract s off w = 0)

/-- The barrel-shifter form of the extractor computes what its definition, R70, computes, at every width of a field.
40_bit_codec.md section 2 marks the form as derived. -/
def Obligations.BarrelExtractorRefinesExtract : Prop :=
  ∀ (s : State) (off w : Nat), 1 ≤ w → w ≤ 64 → extractBarrel s off w = extract s off w

/-- R31: bit `i` of a field carries bit `w-1-i` of its value; a byte-aligned field of whole bytes is the big-endian
integer of its bytes; a narrower field at the same position is the top of a wider one. -/
def Obligations.FieldOrderIsBigEndian : Prop :=
  ∀ (s : State) (off w : Nat), 1 ≤ w → w ≤ 64 →
    (∀ i, i < w → (extract s off w).testBit (w - 1 - i) = s.bufBit (off + i)) ∧
    (∀ n, 1 ≤ n → n ≤ 8 → off % 8 = 0 → extract s off (8 * n) = s.memRead (off / 8) n) ∧
    (∀ v, 1 ≤ v → v ≤ w → extract s off v = extract s off w / 2 ^ (w - v))

/-- R72: the sign-extend unit gives the source's complement form, `raw - 2^w`, when the top bit of a signed field is
set and `raw` otherwise; the result lies in the field's range; on the 64-bit port the bits from `w` up repeat the top
bit of a signed field and are 0 for an unsigned one. -/
def Obligations.SignExtendAtTheFieldsOwnWidth : Prop :=
  ∀ (ty : FieldType) (raw : Nat), ty.legal = true → raw < 2 ^ ty.width →
    (ty.sign = .unsigned → signExt ty raw = raw) ∧
    (ty.sign = .signed → raw.testBit (ty.width - 1) = false → signExt ty raw = raw) ∧
    (ty.sign = .signed → raw.testBit (ty.width - 1) = true →
      signExt ty raw = -(((~~~(BitVec.ofNat ty.width raw)).toNat : Int) + 1) ∧
      signExt ty raw = (raw : Int) - 2 ^ ty.width) ∧
    (ty.sign = .signed → signExt ty raw = sext ty.width raw) ∧
    (fieldMin ty ≤ signExt ty raw ∧ signExt ty raw ≤ fieldMax ty) ∧
    (∀ i, i < 64 → (BitVec.ofInt 64 (signExt ty raw)).getLsbD i =
      if i < ty.width then raw.testBit i else (ty.sign == .signed && raw.testBit (ty.width - 1)))

/-- R37: positions past the end read as 0; a field wholly past the end reads 0, signed or not,
with the guard as without it; one that straddles the
end keeps its leading bits and has zeros below; and a read (GET) never faults, never grows and changes no byte. -/
def Obligations.ReadPastTheEndGivesZeros : Prop :=
  ∀ (s : State) (off : Nat) (ty : FieldType), ty.legal = true →
    (∀ p, s.bitLen ≤ p → s.bufBit p = false) ∧
    (s.bitLen ≤ off → fieldRead s off ty = 0) ∧
    (s.bitLen < off → extract s off ty.width = 0 ∧ shiftIn s off ty.width = 0) ∧
    (off < s.bitLen → s.bitLen < off + ty.width →
      extract s off ty.width = extract s off (s.bitLen - off) * 2 ^ (off + ty.width - s.bitLen)) ∧
    (∀ o : Offset, ∃ t, exec (.get ty o) s = .next t ∧ t.mem = s.mem ∧ t.len = s.len ∧ t.run = s.run)

/-- What FieldRead gives lies in the field's range, the `cur` port gives the same number back, and the detector's two
conditions never hold together on it. 41_overflow_arith.md section 4 marks this as derived from R72 and R73. -/
def Obligations.FieldReadStaysInRange : Prop :=
  ∀ (s : State) (off : Nat) (ty : FieldType) (incr : Value), ty.legal = true →
    (fieldMin ty ≤ fieldRead s off ty ∧ fieldRead s off ty ≤ fieldMax ty) ∧
    readPort ty.sign (BitVec.ofInt 64 (fieldRead s off ty)) = fieldRead s off ty ∧
    ¬(overflows ty (fieldRead s off ty) incr.toInt = true ∧ underflows ty (fieldRead s off ty) incr.toInt = true)

/-- The write guard is strict: a write at `off > 8*LEN` is a no-op, one at `off = 8*LEN` appends, a write grows the buffer by
at most `ceil(w/8)` bytes, and the inserter says that it wrote exactly when it was not guarded. 20_memory.md section 4 and
40_bit_codec.md section 4; the strict reading is decision D14. -/
def Obligations.WriteGuardIsStrict : Prop :=
  ∀ (s : State) (off w : Nat) (val : Int), 1 ≤ w → w ≤ 64 →
    (off > s.bitLen → fieldWrite s off w val = .ok ⟨s, false⟩) ∧
    (off = s.bitLen → s.cfg.cap.fits (s.len + ceilDiv w 8) = true →
      ∃ t, fieldWrite s off w val = .ok ⟨t, true⟩ ∧ t.len = s.len + ceilDiv w 8) ∧
    (∀ t wrote, fieldWrite s off w val = .ok ⟨t, wrote⟩ →
      t.len ≤ s.len + ceilDiv w 8 ∧ ceilDiv w 8 ≤ 8 ∧ (wrote = true ↔ off ≤ s.bitLen))

/-- R39: a write that passes the guard grows the buffer by exactly the rule's amount, the new bits the field does not
cover are 0, a write inside the buffer does not grow it, and only SET and an INCRBY that is not refused grow it. -/
def Obligations.GrowthIsExact : Prop :=
  (∀ (s t : State) (wrote : Bool) (off w : Nat) (val : Int), 1 ≤ w → w ≤ 64 → off ≤ s.bitLen →
    fieldWrite s off w val = .ok ⟨t, wrote⟩ →
    (off + w ≤ s.bitLen → t.len = s.len) ∧
    (off + w > s.bitLen → t.len = s.len + ceilDiv (off + w - s.bitLen) 8 ∧ t.len = ceilDiv (off + w) 8) ∧
    (∀ p, s.bitLen ≤ p → ¬(off ≤ p ∧ p < off + w) → t.bufBit p = false)) ∧
  (∀ (i : Instr) (s t : State), exec i s = .next t → t.len ≠ s.len →
    (∃ ty off value, i = .set ty off value) ∨
    (∃ ty off increment, i = .incrby ty off increment ∧ ¬IncrbyRefused ty off increment s))

/-- A write that passes the guard sets its `w` target bits, most significant first, and no other bit of the buffer.
20_memory.md section 3 and 40_bit_codec.md sections 4 and 5; growth beyond `CAP` is decision D4. -/
def Obligations.WriteSetsExactlyTheField : Prop :=
  ∀ (s t : State) (wrote : Bool) (off w : Nat) (val : Int), 1 ≤ w → w ≤ 64 → off ≤ s.bitLen →
    fieldWrite s off w val = .ok ⟨t, wrote⟩ →
    ∀ q, t.bufBit q = if off ≤ q ∧ q < off + w then (lowBits w val).testBit (w - 1 - (q - off)) else s.bufBit q

/-- Round trip: what a write that passes the guard stored reads back as its low `w` bits, and a value of the field's range
reads back as itself. 40_bit_codec.md section 5; the preconditions are those of 90_conflicts.md C2. -/
def Obligations.WriteThenReadRoundTrips : Prop :=
  ∀ (s t : State) (wrote : Bool) (off : Nat) (ty : FieldType) (val : Int), ty.legal = true → off ≤ s.bitLen →
    fieldWrite s off ty.width val = .ok ⟨t, wrote⟩ →
    fieldRead t off ty = signExt ty (lowBits ty.width val) ∧
    (fieldMin ty ≤ val → val ≤ fieldMax ty → fieldRead t off ty = val)

/-- The merge form of the inserter gives the very outputs, or the fault, the inserter's definition gives, in every state with a canonical
memory. 40_bit_codec.md section 4 marks the form as derived; decision D4 is in both. -/
def Obligations.MergeInserterRefinesFieldWrite : Prop :=
  ∀ (s : State) (off w : Nat) (val : Int), 1 ≤ w → w ≤ 64 → s.mem.wf = true →
    fieldWriteMerge s off w val = fieldWrite s off w val

/-- The primitives `MemWrite` and `MemRead`: a read of the bytes just written gives the value modulo `2^(8n)`, and no other
byte changes. 00_scope.md section 4, decision D1. -/
def Obligations.MemReadAfterMemWrite : Prop :=
  ∀ (s : State) (addr n v : Nat), addr + n ≤ s.len →
    (s.memWrite addr n v).memRead addr n = v % 2 ^ (8 * n) ∧
    (∀ a, ¬(addr ≤ a ∧ a < addr + n) → (s.memWrite addr n v).byteAt a = s.byteAt a)

/-! ### Overflow arithmetic -/

/-- The field range is exactly the set of numbers that survive being cut to `w` bits and sign-extended. 41_overflow_arith.md
section 1 and 40_bit_codec.md section 3. -/
def Obligations.FieldRangeIsTheRepresentableRange : Prop :=
  ∀ (ty : FieldType) (v : Int), ty.legal = true →
    ((fieldMin ty ≤ v ∧ v ≤ fieldMax ty) ↔ signExt ty (lowBits ty.width v) = v)

/-- The reduced form of the detector, for every 64-bit `cur` and `incr`: overflow is `cur > max` or `cur + incr > max`,
underflow the mirror image, and overflow wins. 41_overflow_arith.md section 2 marks the form as derived; D16, D17. -/
def Obligations.DetectorReducedForm : Prop :=
  ∀ (ty : FieldType) (cur incr : Value), ty.legal = true →
    let c := readPort ty.sign cur
    let n := incr.toInt
    (overflows ty c n = true ↔ c > fieldMax ty ∨ c + n > fieldMax ty) ∧
    (underflows ty c n = true ↔ c < fieldMin ty ∨ c + n < fieldMin ty) ∧
    detect ty c n =
      (if c > fieldMax ty ∨ c + n > fieldMax ty then .overflow
       else if c < fieldMin ty ∨ c + n < fieldMin ty then .underflow else .none)

/-- R96: without overflow the new value is the exact sum under every policy, and it lies in the field's range. -/
def Obligations.AdderIsExactWithoutOverflow : Prop :=
  ∀ (ty : FieldType) (pol : Policy) (cur incr : Value), ty.legal = true → (compute ty pol cur incr).2 = .none →
    (compute ty pol cur incr).1 = readPort ty.sign cur + incr.toInt ∧
    fieldMin ty ≤ (compute ty pol cur incr).1 ∧ (compute ty pol cur incr).1 ≤ fieldMax ty

/-- R97 and R99: on overflow or underflow an unsigned field under wrap or fail gets the low `w` bits of the sum, with no
sign extension; under saturate every field gets `max` on overflow and `min` on underflow. -/
def Obligations.AdderWrapsUnsignedAndSaturates : Prop :=
  ∀ (ty : FieldType) (pol : Policy) (cur incr : Value), ty.legal = true → (compute ty pol cur incr).2 ≠ .none →
    (ty.sign = .unsigned → pol ≠ .saturate →
      (compute ty pol cur incr).1 = (readPort ty.sign cur + incr.toInt) % 2 ^ ty.width) ∧
    (pol = .saturate → (compute ty pol cur incr).2 = .overflow → (compute ty pol cur incr).1 = fieldMax ty) ∧
    (pol = .saturate → (compute ty pol cur incr).2 = .underflow → (compute ty pol cur incr).1 = fieldMin ty)

/-- R98: on overflow or underflow a signed field under wrap or fail gets the sum formed modulo `2^64` and sign-extended at
the field's own width, which is the one number of the field's range congruent to the sum modulo `2^w`; at `w = 64` it
is the sum read as 64-bit two's complement. -/
def Obligations.SignedWrapAroundAtTheFieldsOwnWidth : Prop :=
  ∀ (ty : FieldType) (pol : Policy) (cur incr : Value), ty.legal = true → ty.sign = .signed →
    pol ≠ .saturate → (compute ty pol cur incr).2 ≠ .none →
    let sum := readPort ty.sign cur + incr.toInt
    (compute ty pol cur incr).1 = sext ty.width (sum % 2 ^ 64 % 2 ^ ty.width) ∧
    (fieldMin ty ≤ (compute ty pol cur incr).1 ∧ (compute ty pol cur incr).1 ≤ fieldMax ty) ∧
    (compute ty pol cur incr).1 % 2 ^ ty.width = sum % 2 ^ ty.width ∧
    (∀ v : Int, fieldMin ty ≤ v → v ≤ fieldMax ty → v % 2 ^ ty.width = sum % 2 ^ ty.width →
      v = (compute ty pol cur incr).1) ∧
    (ty.width = 64 → (compute ty pol cur incr).1 = (BitVec.ofInt 64 sum).toInt)

/-- The laws of Compute: the range, congruence under wrap and fail, the clamp under saturate, the meaning of the indicator
for `cur` in range, the zero increment, and that the indicator does not depend on the policy. 41_overflow_arith.md
section 4 marks them as derived. -/
def Obligations.ComputeLaws : Prop :=
  ∀ (ty : FieldType) (pol : Policy) (cur incr : Value), ty.legal = true →
    let c := readPort ty.sign cur
    let sum := c + incr.toInt
    let new := (compute ty pol cur incr).1
    let ind := (compute ty pol cur incr).2
    (fieldMin ty ≤ new ∧ new ≤ fieldMax ty) ∧
    (pol ≠ .saturate → new % 2 ^ ty.width = sum % 2 ^ ty.width) ∧
    (fieldMin ty ≤ c → c ≤ fieldMax ty →
      (pol = .saturate → new = min (fieldMax ty) (max (fieldMin ty) sum)) ∧
      (ind = .overflow ↔ sum > fieldMax ty) ∧ (ind = .underflow ↔ sum < fieldMin ty) ∧
      (incr = 0#64 → new = c ∧ ind = .none)) ∧
    (∀ p : Policy, (compute ty p cur incr).2 = ind)

/-! ### The instructions -/

/-- The effective address is the offset, or the offset times the width formed in full; it is below `2^70`.
42_operations.md section 2; the full product is decision D15. -/
def Obligations.EffectiveAddressIsFormedInFull : Prop :=
  ∀ (ty : FieldType) (n : BitVec 64), ty.legal = true →
    effectiveAddress ty (.absolute n) = n.toNat ∧ effectiveAddress ty (.element n) = n.toNat * ty.width ∧
    effectiveAddress ty (.absolute n) < 2 ^ 70 ∧ effectiveAddress ty (.element n) < 2 ^ 70

/-- R113: GET appends the field's value with `REFUSED = 0` and `OVF = 0`, advances `PC`, and changes nothing else, in every
state; past the end the value is 0. -/
def Obligations.GetReturnsTheField : Prop :=
  ∀ (ty : FieldType) (off : Offset) (s : State), ty.legal = true →
    exec (.get ty off) s = .next { s with
      res := s.res ++ [{ refused := false, ovf := .none,
                         value := BitVec.ofInt 64 (fieldRead s (effectiveAddress ty off) ty) }]
      pc := s.pc + 1 } ∧
    (s.bitLen ≤ effectiveAddress ty off → fieldRead s (effectiveAddress ty off) ty = 0)

/-- R114: SET completes when its write fits: it reports the old value, advances `PC`, keeps `POLICY`, stores the low `w`
bits of its value (nothing at a guarded offset, where it reports 0) and appends at the end; a write that does not fit
raises CAPACITY and changes nothing else. -/
def Obligations.SetWritesTheFieldAndReportsTheOldValue : Prop :=
  ∀ (ty : FieldType) (off : Offset) (value : Value) (s : State), ty.legal = true →
    (WriteFits s (effectiveAddress ty off) ty.width →
      ∃ t, exec (.set ty off value) s = .next t ∧
        t = { s with mem := t.mem, len := t.len, res := t.res, pc := s.pc + 1 } ∧
        t.res = s.res ++ [{ refused := false, ovf := .none,
                            value := BitVec.ofInt 64 (fieldRead s (effectiveAddress ty off) ty) }] ∧
        (effectiveAddress ty off ≤ s.bitLen →
          fieldRead t (effectiveAddress ty off) ty = signExt ty (lowBits ty.width value.toInt)) ∧
        (effectiveAddress ty off = s.bitLen → t.len = s.len + ceilDiv ty.width 8) ∧
        (effectiveAddress ty off > s.bitLen →
          t.mem = s.mem ∧ t.len = s.len ∧ fieldRead s (effectiveAddress ty off) ty = 0)) ∧
    (¬WriteFits s (effectiveAddress ty off) ty.width →
      exec (.set ty off value) s = .next { s with run := .fault, fcause := .capacity, fidx := s.pc })

/-- R115: INCRBY computes on the field's current value under `POLICY`. Under fail with an indicator it is refused: a record
with `REFUSED = 1` and `VALUE = 0`, no byte written. Otherwise it writes the new value (nothing at a guarded offset) and
reports it with the indicator. Both set `POLICY` to wrap and advance `PC`. A write that does not fit raises CAPACITY and
changes nothing else. -/
def Obligations.IncrbyRefusesOrWritesTheNewValue : Prop :=
  ∀ (ty : FieldType) (off : Offset) (increment : Value) (s : State), ty.legal = true →
    let ea := effectiveAddress ty off
    let result := compute ty s.policy (BitVec.ofInt 64 (fieldRead s ea ty)) increment
    (s.policy = .fail ∧ result.2 ≠ .none →
      exec (.incrby ty off increment) s = .next { s with
        res := s.res ++ [{ refused := true, ovf := result.2, value := 0#64 }], policy := .wrap, pc := s.pc + 1 }) ∧
    (¬(s.policy = .fail ∧ result.2 ≠ .none) → WriteFits s ea ty.width →
      ∃ t, exec (.incrby ty off increment) s = .next t ∧
        t = { s with mem := t.mem, len := t.len, res := t.res, policy := .wrap, pc := s.pc + 1 } ∧
        t.res = s.res ++ [{ refused := false, ovf := result.2, value := BitVec.ofInt 64 result.1 }] ∧
        (ea ≤ s.bitLen → fieldRead t ea ty = result.1) ∧
        (ea > s.bitLen → t.mem = s.mem ∧ t.len = s.len)) ∧
    (¬(s.policy = .fail ∧ result.2 ≠ .none) → ¬WriteFits s ea ty.width →
      exec (.incrby ty off increment) s = .next { s with run := .fault, fcause := .capacity, fidx := s.pc })

/-- R116: every INCRBY that completes, refused or not, leaves `POLICY` at wrap; one that faults keeps it; GET and SET keep
it; OVERFLOW replaces it. So a policy set by OVERFLOW is the one the next INCRBY sees, whatever GET and SET stand between,
and is gone after it. -/
def Obligations.IncrbyConsumesThePolicy : Prop :=
  (∀ (ty : FieldType) (off : Offset) (increment : Value) (s t : State),
    exec (.incrby ty off increment) s = .next t →
      (t.pc = s.pc + 1 ∧ t.policy = .wrap) ∨ (t.pc = s.pc ∧ t.run = .fault ∧ t.policy = s.policy)) ∧
  (∀ (ty : FieldType) (off : Offset) (s t : State), exec (.get ty off) s = .next t → t.policy = s.policy) ∧
  (∀ (ty : FieldType) (off : Offset) (value : Value) (s t : State),
    exec (.set ty off value) s = .next t → t.policy = s.policy) ∧
  (∀ (p : Policy) (between : List Instr) (s t t' : State), (∀ i ∈ between, GetOrSet i) →
    exec (.overflow p) s = .next t → execAll between t = some t' →
      t'.policy = p ∧
      (∀ (ty : FieldType) (off : Offset) (increment : Value) (r : State),
        exec (.incrby ty off increment) t' = .next r → r.pc = t'.pc + 1 → r.policy = .wrap))

/-- INCRBY at a guarded position computes on 0, stores nothing, and reports the computed value or the refusal all the same;
the policy is reset. 42_operations.md section 5 marks this as derived from R115. -/
def Obligations.IncrbyAtAGuardedPosition : Prop :=
  ∀ (ty : FieldType) (off : Offset) (increment : Value) (s : State), ty.legal = true →
    effectiveAddress ty off > s.bitLen →
    let result := compute ty s.policy 0#64 increment
    exec (.incrby ty off increment) s = .next { s with
      res := s.res ++ [if s.policy = .fail ∧ result.2 ≠ .none
        then { refused := true, ovf := result.2, value := 0#64 }
        else { refused := false, ovf := result.2, value := BitVec.ofInt 64 result.1 }]
      policy := .wrap
      pc := s.pc + 1 }

/-- OVERFLOW sets `POLICY`, advances `PC`, appends no record and changes nothing else, in every state. 42_operations.md
section 6; that it appends no record is decision D11. -/
def Obligations.OverflowSetsThePolicy : Prop :=
  ∀ (p : Policy) (s : State), exec (.overflow p) s = .next { s with policy := p, pc := s.pc + 1 }

/-- CAPACITY is raised exactly by a SET, or an INCRBY that is not refused, whose write does not fit, and it changes `RUN`,
`FCAUSE` and `FIDX` only. 60_exceptions.md section 2, decision D4. -/
def Obligations.CapacityFaultExactlyWhenGrowthDoesNotFit : Prop :=
  ∀ (i : Instr) (s t : State), exec i s = .next t → s.run ≠ .fault →
    (t.run = .fault ↔
      (∃ ty off value, i = .set ty off value ∧ ¬WriteFits s (effectiveAddress ty off) ty.width) ∨
      (∃ ty off increment, i = .incrby ty off increment ∧ ¬IncrbyRefused ty off increment s ∧
        ¬WriteFits s (effectiveAddress ty off) ty.width)) ∧
    (t.run = .fault → t = { s with run := .fault, fcause := .capacity, fidx := s.pc })

/-- The frame of GET and OVERFLOW, which store nothing: every byte, `LEN`, the batch, the run state and the fault registers
are as before; GET keeps `POLICY` and OVERFLOW keeps the results. 42_operations.md sections 3 and 6. -/
def Obligations.FrameOfGetAndOverflow : Prop :=
  ∀ (i : Instr) (s t : State),
    ((∃ ty off, i = .get ty off) ∨ (∃ p, i = .overflow p)) → exec i s = .next t →
      (∀ a, t.byteAt a = s.byteAt a) ∧ t.len = s.len ∧ t.cfg = s.cfg ∧ t.cmd = s.cmd ∧ t.run = s.run ∧
      t.fcause = s.fcause ∧ t.fidx = s.fidx ∧
      ((∃ ty off, i = .get ty off) → t.policy = s.policy) ∧ ((∃ p, i = .overflow p) → t.res = s.res)

/-- The frame of SET and INCRBY: every byte the field does not touch reads as before, within the buffer and past its end,
and so does every bit outside the field; the batch is unchanged; the run state and the fault registers are unchanged
unless the command raises CAPACITY; the earlier results are kept; SET keeps `POLICY`. 20_memory.md section 3 and
42_operations.md sections 4 and 5. -/
def Obligations.FrameOfSetAndIncrby : Prop :=
  ∀ (i : Instr) (ty : FieldType) (off : Offset) (v : Value) (s t : State),
    (i = .set ty off v ∨ i = .incrby ty off v) → exec i s = .next t →
      (∀ a, OutsideField (effectiveAddress ty off) ty.width a → t.byteAt a = s.byteAt a) ∧
      (∀ p, ¬(effectiveAddress ty off ≤ p ∧ p < effectiveAddress ty off + ty.width) → t.bufBit p = s.bufBit p) ∧
      (effectiveAddress ty off > s.bitLen → ∀ a, t.byteAt a = s.byteAt a) ∧
      s.len ≤ t.len ∧ t.cfg = s.cfg ∧ t.cmd = s.cmd ∧
      ((t.run = s.run ∧ t.fcause = s.fcause ∧ t.fidx = s.fidx ∧ ∃ r, t.res = s.res ++ [r]) ∨
       (t.run = .fault ∧ t.fcause = .capacity ∧ t.fidx = s.pc ∧ t.res = s.res ∧ t.mem = s.mem ∧ t.len = s.len)) ∧
      (i = .set ty off v → t.policy = s.policy)

/-- A well-formed instruction answers a next state in every state; one whose type no legal word holds is refused, as
93_implementation_defined.md U3 has the units do. -/
def Obligations.WellFormedInstructionsAlwaysRun : Prop :=
  (∀ (i : Instr) (s : State), i.wellFormed = true → ∃ t, exec i s = .next t) ∧
  (∀ (i : Instr) (s : State), i.wellFormed = false → exec i s = .refused .widthUndefined)

/-! ### The sequencer -/

/-- A step runs the decoded instruction: while running, before the end of the batch, a step on a command that decodes to
`i` is `exec i`. 42_operations.md section 1, decision D1. -/
def Obligations.StepRunsTheDecodedCommand : Prop :=
  ∀ (s : State) (c : CommandWord) (i : Instr), s.run = .running → s.pc < s.ncmd → s.cmd[s.pc]? = some c →
    decode c = .ok i → step s = exec i s

/-- The step at `PC = NCMD` ends the run and changes `RUN` only. 42_operations.md section 1, decisions D9 and D27. -/
def Obligations.StepAtTheEndOfTheBatchIsDone : Prop :=
  ∀ s : State, s.run = .running → s.pc = s.ncmd → step s = .next { s with run := .done }

/-- A step on an illegal word enters ILLEGAL_CMD at `PC`: of the two readings 42_operations.md section 1 allows, the model's
choice (log entry 6). -/
def Obligations.StepOnAnIllegalWordFaults : Prop :=
  ∀ (s : State) (c : CommandWord), s.run = .running → s.pc < s.ncmd → s.cmd[s.pc]? = some c → legal c = false →
    step s = .next { s with run := .fault, fcause := .illegalCmd, fidx := s.pc }

/-- The sequencer has a step exactly when `RUN = RUNNING`, in every state of the invariant, and no step of any state is a
refusal. 42_operations.md section 1, decision D1; that a step outside RUNNING is a named stop is log entry 4. -/
def Obligations.StepExistsExactlyWhileRunning : Prop :=
  (∀ s : State, StateInv s → ((∃ t, step s = .next t) ↔ s.run = .running)) ∧
  (∀ s : State, s.run ≠ .running → step s = .fault (.notRunning s.run)) ∧
  (∀ (s : State) (r : Refusal), step s ≠ .refused r)

/-- A step never writes the batch or the parameters, never shrinks the buffer, and advances `PC` by exactly 1 when the
command completes and not at all when the run ends. 10_state.md sections 2 and 4, 20_memory.md section 5, and
42_operations.md section 1. -/
def Obligations.StepKeepsTheBatchAndAdvancesByOne : Prop :=
  ∀ s t : State, step s = .next t →
    t.cmd = s.cmd ∧ t.cfg = s.cfg ∧ s.len ≤ t.len ∧
    (t.run = .running → t.pc = s.pc + 1) ∧ (t.run ≠ .running → t.pc = s.pc ∧ t.ended)

/-- Faults are precise: a step that enters a fault changes `RUN`, `FCAUSE` and `FIDX` only, and `FIDX` is the command's
index. 60_exceptions.md section 3, decision D9. -/
def Obligations.FaultsArePrecise : Prop :=
  ∀ s t : State, step s = .next t → t.run = .fault →
    t = { s with run := .fault, fcause := t.fcause, fidx := s.pc } ∧ t.fcause ≠ .none

/-- Reset gives every element its value, from any state and for any parameters: an empty buffer of bytes that read 0,
`POLICY` wrap, an empty batch, `PC` 0, no results, IDLE, no fault. 10_state.md section 8 and 70_reset_and_hazards.md
section 1, decision D18. -/
def Obligations.ResetLeavesEveryElementAtItsValue : Prop :=
  (∀ s : State,
    (resetEvent s).cfg = s.cfg ∧ (resetEvent s).len = 0 ∧ (∀ a, (resetEvent s).byteAt a = 0#8) ∧
    (resetEvent s).policy = .wrap ∧ (resetEvent s).ncmd = 0 ∧ (resetEvent s).pc = 0 ∧ (resetEvent s).rcnt = 0 ∧
    (resetEvent s).run = .idle ∧ (resetEvent s).fcause = .none ∧ (resetEvent s).fidx = 0) ∧
  State.reset = resetEvent State.reset

/-- The invariant holds right after reset, for any parameters. -/
def Obligations.ResetSatisfiesTheInvariant : Prop := ∀ cfg : Config, StateInv (State.resetWith cfg)

/-- Every step keeps the invariant. -/
def Obligations.StepKeepsTheInvariant : Prop := ∀ s t : State, StateInv s → step s = .next t → StateInv t

/-- Every host action, reset, and every edge of the pins keeps the invariant. -/
def Obligations.HostKeepsTheInvariant : Prop :=
  ∀ s : State, StateInv s →
    (∀ a : HostAction, StateInv (hostEffect a s)) ∧ StateInv (resetEvent s) ∧
    (∀ (rst : Bool) (strobe : Strobe), StateInv (pinEdge rst strobe s))

/-- Every state a BFU can reach, whatever its parameters and whatever the host does, satisfies the invariant. -/
def Obligations.ReachableStatesSatisfyTheInvariant : Prop := ∀ s : State, Reachable s → StateInv s

/-- Every run ends: from a running state of the invariant, within `NCMD - PC + 1` steps the machine is at DONE or FAULT. A
run that ends at DONE took exactly that many steps, has `PC = NCMD`, and holds one record for each command of the batch
that is not OVERFLOW. 42_operations.md section 1 and 70_reset_and_hazards.md section 6; decisions D9, D11, D21, D27. -/
def Obligations.EveryRunEnds : Prop :=
  ∀ s : State, StateInv s → s.run = .running →
    ∃ (k : Nat) (t : State), Sys2Proof.core.run k s = .next t ∧ t.ended ∧ k ≤ s.ncmd - s.pc + 1 ∧
      (t.run = .done → k = s.ncmd - s.pc + 1 ∧ t.pc = s.ncmd ∧ t.rcnt = recordsOf s.cmd)

/-! ### The host -/

/-- `HostStart` clears the fault registers, `PC` and the results, validates the whole batch, and either runs it or enters
ILLEGAL_CMD at the least illegal index with nothing executed. 70_reset_and_hazards.md section 2 and 60_exceptions.md
section 2, decisions D9 and D28. -/
def Obligations.StartValidatesTheWholeBatch : Prop :=
  ∀ s : State, s.run ≠ .running →
    ((∀ c ∈ s.cmd, legal c = true) →
      hostStart s = { s with fcause := .none, fidx := 0, pc := 0, res := [], run := .running }) ∧
    (∀ (i : Nat) (c : CommandWord), s.cmd[i]? = some c → legal c = false →
      (∀ (j : Nat) (d : CommandWord), j < i → s.cmd[j]? = some d → legal d = true) →
      hostStart s = { s with fcause := .illegalCmd, fidx := i, pc := 0, res := [], run := .fault })

/-- While running, no load and no start has any effect, on the pins either; a buffer or result read tells nothing; the
status read still answers. 70_reset_and_hazards.md sections 2 and 4, decision D19. -/
def Obligations.HostIsIgnoredWhileRunning : Prop :=
  ∀ s : State, s.run = .running →
    (∀ a : HostAction, hostEffect a s = s) ∧ (∀ strobe : Strobe, pinEdge false strobe s = s) ∧
    hostReply .readBuffer s = .anyValue ∧ hostReply .readResults s = .anyValue ∧
    hostReply .readStatus s = .status .running s.fcause s.fidx s.pc s.ncmd s.policy

/-- A load that fits replaces the whole buffer or the whole batch and nothing else; the buffer then reads back byte for
byte; a load that does not fit changes nothing. 70_reset_and_hazards.md section 2, decisions D12 and D19. -/
def Obligations.LoadsReplaceTheWholeStore : Prop :=
  ∀ s : State, s.run ≠ .running →
    (∀ bytes : List Byte,
      (s.cfg.cap.fits bytes.length = true →
        hostReply .readBuffer (hostLoadBuffer bytes s) = .buffer bytes.length bytes ∧
        hostLoadBuffer bytes s =
          { s with mem := (hostLoadBuffer bytes s).mem, len := bytes.length }) ∧
      (s.cfg.cap.fits bytes.length = false → hostLoadBuffer bytes s = s)) ∧
    (∀ words : List CommandWord,
      (s.cfg.qcap.fits words.length = true → hostLoadBatch words s = { s with cmd := words }) ∧
      (s.cfg.qcap.fits words.length = false → hostLoadBatch words s = s))

/-- On the pins, a clear followed by one push per byte or word is the host's load, when the load fits.
70_reset_and_hazards.md section 4, decision D19. -/
def Obligations.PinPushesAreTheHostLoads : Prop :=
  ∀ s : State, s.run ≠ .running →
    (∀ bytes : List Byte, s.cfg.cap.fits bytes.length = true →
      bytes.foldl (fun t b => pinEdge false (.bufPush b) t) (pinEdge false .bufClear s) = hostLoadBuffer bytes s) ∧
    (∀ words : List CommandWord, s.cfg.qcap.fits words.length = true →
      words.foldl (fun t w => pinEdge false (.cmdPush w) t) (pinEdge false .cmdClear s) = hostLoadBatch words s)

/-! ### What cannot be seen -/

/-- GET and SET neither read nor write `POLICY`: under another policy they do the same and keep that policy.
10_state.md section 3 and 42_operations.md sections 3 and 4. -/
def Obligations.GetAndSetDoNotSeeThePolicy : Prop :=
  ∀ (i : Instr) (p : Policy) (s t : State),
    GetOrSet i → exec i s = .next t →
      exec i (s.setPolicy p) = .next (t.setPolicy p)

/-- What lies beyond `LEN` cannot be seen: from two states that differ only in cells that are not state, every instruction
gives the same registers, results and bytes. 10_state.md section 8, decision D25. -/
def Obligations.BytesBeyondTheBufferCannotBeSeen : Prop :=
  ∀ (i : Instr) (s s' t : State), SameVisible s s' → exec i s = .next t →
    ∃ t', exec i s' = .next t' ∧ SameVisible t t'

/-! ### The assembler -/

/-- Every word the assembler produces from an error-free text is legal. 30_encoding.md section 4 marks this as derived. -/
def Obligations.AssembledWordsAreLegal : Prop :=
  ∀ (text : List Char) (words : List CommandWord), assemble text = .ok words → ∀ c ∈ words, legal c = true

/-- Texts of 30_encoding.md section 4 and 95_test_vectors.md table E assemble to their words, and a `u64` or an over-wide
offset produces no batch. Decisions D5 to D8, D15, D26; capital keywords are the model's choice (log entry 14). -/
def Obligations.SpecTextsAssemble : Prop :=
  assemble "SET u8 #1 39".toList = .ok [0x2208000000000000000000010000000000000027#160] ∧
  assemble "GET u24 0 OVERFLOW SAT".toList =
    .ok [0x1018000000000000000000000000000000000000#160, 0x4000010000000000000000000000000000000000#160] ∧
  assemble "INCRBY i5 6 -1".toList = .ok [0x310500000000000000000006FFFFFFFFFFFFFFFF#160] ∧
  (assemble "GET u8 0 GET u64 0".toList).isOk = false ∧
  (assemble "GET u8 18446744073709551616".toList).isOk = false
end

