-- ==== Sys2Proof/Laws/Decode.lean ====
section
/-! SUPPORT. The fields of a word put together from its fields, the codes read back, and that the encoder's words are
legal. -/

namespace Sys2Proof

/-- A slice inside the low part of a concatenation. -/
theorem extract_append_low {m n : Nat} (x : BitVec m) (y : BitVec n) {start len : Nat} (h : start + len ≤ n) :
    (x ++ y).extractLsb' start len = y.extractLsb' start len := by
  apply BitVec.eq_of_getLsbD_eq
  intro i hi
  rw [BitVec.getLsbD_extractLsb', BitVec.getLsbD_extractLsb', BitVec.getLsbD_append, if_pos (by omega)]

/-- A slice inside the high part of a concatenation. -/
theorem extract_append_high {m n : Nat} (x : BitVec m) (y : BitVec n) {start len : Nat} (h : n ≤ start) :
    (x ++ y).extractLsb' start len = x.extractLsb' (start - n) len := by
  apply BitVec.eq_of_getLsbD_eq
  intro i hi
  rw [BitVec.getLsbD_extractLsb', BitVec.getLsbD_extractLsb', BitVec.getLsbD_append, if_neg (by omega),
    show start + i - n = start - n + i by omega]

section fields
variable (op : BitVec 4) (e s : BitVec 1) (w pol : BitVec 8) (offset operand : BitVec 64)

@[simp] theorem fieldOp_wordOfFields : fieldOp (wordOfFields op e s w pol offset operand) = op := by
  simp (disch := omega) only [fieldOp, wordOfFields, extract_append_high, Nat.reduceSub,
    BitVec.extractLsb'_eq_self]

@[simp] theorem fieldReservedHigh_wordOfFields :
    fieldReservedHigh (wordOfFields op e s w pol offset operand) = 0#2 := by
  simp (disch := omega) only [fieldReservedHigh, wordOfFields, extract_append_high, extract_append_low, Nat.reduceSub,
    BitVec.extractLsb'_eq_self]

@[simp] theorem fieldE_wordOfFields : fieldE (wordOfFields op e s w pol offset operand) = e := by
  simp (disch := omega) only [fieldE, wordOfFields, extract_append_high, extract_append_low, Nat.reduceSub,
    BitVec.extractLsb'_eq_self]

@[simp] theorem fieldS_wordOfFields : fieldS (wordOfFields op e s w pol offset operand) = s := by
  simp (disch := omega) only [fieldS, wordOfFields, extract_append_high, extract_append_low, Nat.reduceSub,
    BitVec.extractLsb'_eq_self]

@[simp] theorem fieldW_wordOfFields : fieldW (wordOfFields op e s w pol offset operand) = w := by
  simp (disch := omega) only [fieldW, wordOfFields, extract_append_high, extract_append_low, Nat.reduceSub,
    BitVec.extractLsb'_eq_self]

@[simp] theorem fieldPol_wordOfFields : fieldPol (wordOfFields op e s w pol offset operand) = pol := by
  simp (disch := omega) only [fieldPol, wordOfFields, extract_append_high, extract_append_low, Nat.reduceSub,
    BitVec.extractLsb'_eq_self]

@[simp] theorem fieldReservedLow_wordOfFields :
    fieldReservedLow (wordOfFields op e s w pol offset operand) = 0#8 := by
  simp (disch := omega) only [fieldReservedLow, wordOfFields, extract_append_high, extract_append_low, Nat.reduceSub,
    BitVec.extractLsb'_eq_self]

@[simp] theorem fieldOffset_wordOfFields : fieldOffset (wordOfFields op e s w pol offset operand) = offset := by
  simp (disch := omega) only [fieldOffset, wordOfFields, extract_append_high, extract_append_low, Nat.reduceSub,
    BitVec.extractLsb'_eq_self]

@[simp] theorem fieldOperand_wordOfFields : fieldOperand (wordOfFields op e s w pol offset operand) = operand := by
  simp (disch := omega) only [fieldOperand, wordOfFields, extract_append_low,
    BitVec.extractLsb'_eq_self]

end fields

/-- A word is put together from its own fields when its reserved bits are 0. -/
theorem wordOfFields_fields {c : CommandWord} (hh : fieldReservedHigh c = 0#2) (hl : fieldReservedLow c = 0#8) :
    wordOfFields (fieldOp c) (fieldE c) (fieldS c) (fieldW c) (fieldPol c) (fieldOffset c) (fieldOperand c) = c := by
  unfold wordOfFields
  rw [← hh, ← hl]
  apply BitVec.eq_of_getLsbD_eq
  intro i hi
  simp only [fieldOp, fieldReservedHigh, fieldE, fieldS, fieldW, fieldPol, fieldReservedLow, fieldOffset,
    fieldOperand, BitVec.getLsbD_append, BitVec.getLsbD_extractLsb']
  repeat' split
  all_goals (rw [decide_eq_true (by omega), Bool.true_and]; exact congrArg c.getLsbD (by omega))

@[simp] theorem signednessOf_code (s : Signedness) : signednessOf s.code = s := by cases s <;> rfl

@[simp] theorem code_signednessOf (b : BitVec 1) : (signednessOf b).code = b := by
  revert b
  decide

@[simp] theorem offsetOf_code (o : Offset) : offsetOf o.modeCode o.number = o := by cases o <;> rfl

@[simp] theorem modeCode_offsetOf (e : BitVec 1) (n : BitVec 64) : (offsetOf e n).modeCode = e := by
  unfold offsetOf
  split
  · next h => exact h.symm
  · next h =>
    revert h
    revert e
    simp only [Offset.modeCode]
    decide

@[simp] theorem number_offsetOf (e : BitVec 1) (n : BitVec 64) : (offsetOf e n).number = n := by
  unfold offsetOf
  split <;> rfl

@[simp] theorem policyOf_code (p : Policy) : policyOf (BitVec.ofNat 8 p.code) = some p := by cases p <;> rfl

/-- The width field holds the width of a legal type. -/
theorem toNat_width_of_legal {ty : FieldType} (h : ty.legal = true) : (BitVec.ofNat 8 ty.width).toNat = ty.width := by
  unfold FieldType.legal Signedness.maxWidth at h
  simp only [Bool.and_eq_true, decide_eq_true_eq] at h
  rw [BitVec.toNat_ofNat, Nat.mod_eq_of_lt]
  split at h <;> omega

/-- The bounds of a legal type's width. -/
theorem width_bounds_of_legal {ty : FieldType} (h : ty.legal = true) :
    1 ≤ ty.width ∧ ty.width ≤ 64 ∧ (ty.sign = .unsigned → ty.width ≤ 63) := by
  unfold FieldType.legal Signedness.maxWidth at h
  simp only [Bool.and_eq_true, decide_eq_true_eq] at h
  split at h <;> simp_all
  omega

/-- The type read back from an encoded command. -/
theorem typeOf_encodeField {op : BitVec 4} {ty : FieldType} (off : Offset) (operand : BitVec 64)
    (h : ty.legal = true) : typeOf (encodeField op ty off operand) = ty := by
  simp [typeOf, encodeField, toNat_width_of_legal h]

/-- `W` and `S` of an encoded command are legal. -/
theorem legalWidth_encodeField {op : BitVec 4} {ty : FieldType} (off : Offset) (operand : BitVec 64)
    (h : ty.legal = true) : legalWidth (encodeField op ty off operand) = true := by
  obtain ⟨h1, h64, h63⟩ := width_bounds_of_legal h
  unfold legalWidth
  simp only [encodeField, fieldW_wordOfFields, fieldS_wordOfFields, toNat_width_of_legal h]
  cases hs : ty.sign <;> simp [h1, h64, Signedness.code]
  exact h63 hs

/-- What the shared checks of GET, SET and INCRBY let through. -/
theorem decodeField_ok {c : CommandWord} {i j : Instr} (h : decodeField c i = .ok j) :
    fieldPol c = 0#8 ∧ (typeOf c).legal = true ∧ j = i := by
  unfold decodeField at h
  by_cases hp : fieldPol c = 0#8
  · rw [if_pos hp] at h
    by_cases hl : (typeOf c).legal = true
    · rw [if_pos hl] at h
      exact ⟨hp, hl, (Except.ok.inj h).symm⟩
    · rw [if_neg hl] at h
      cases h
  · rw [if_neg hp] at h
    cases h

/-- What OVERFLOW's checks let through. -/
theorem decodeOverflow_ok {c : CommandWord} {i : Instr} (h : decodeOverflow c = .ok i) :
    (fieldE c = 0#1 ∧ fieldS c = 0#1 ∧ fieldW c = 0#8 ∧ fieldOffset c = 0#64 ∧ fieldOperand c = 0#64) ∧
      ∃ p, policyOf (fieldPol c) = some p ∧ i = .overflow p := by
  unfold decodeOverflow at h
  split at h
  · next hz =>
    refine ⟨hz, ?_⟩
    split at h
    · next p hp => exact ⟨p, hp, (Except.ok.inj h).symm⟩
    · cases h
  · cases h

/-- Everything the decoder can read: which instruction, and what its word then holds. -/
theorem decode_ok {c : CommandWord} {i : Instr} (h : decode c = .ok i) :
    (fieldReservedHigh c = 0#2 ∧ fieldReservedLow c = 0#8) ∧
      ((fieldOp c = 1#4 ∧ fieldOperand c = 0#64 ∧ fieldPol c = 0#8 ∧ (typeOf c).legal = true ∧
          i = .get (typeOf c) (offsetOf (fieldE c) (fieldOffset c))) ∨
       (fieldOp c = 2#4 ∧ fieldPol c = 0#8 ∧ (typeOf c).legal = true ∧
          i = .set (typeOf c) (offsetOf (fieldE c) (fieldOffset c)) (fieldOperand c)) ∨
       (fieldOp c = 3#4 ∧ fieldPol c = 0#8 ∧ (typeOf c).legal = true ∧
          i = .incrby (typeOf c) (offsetOf (fieldE c) (fieldOffset c)) (fieldOperand c)) ∨
       (fieldOp c = 4#4 ∧
          (fieldE c = 0#1 ∧ fieldS c = 0#1 ∧ fieldW c = 0#8 ∧ fieldOffset c = 0#64 ∧ fieldOperand c = 0#64) ∧
          ∃ p, policyOf (fieldPol c) = some p ∧ i = .overflow p)) := by
  unfold decode at h
  by_cases hr : fieldReservedHigh c = 0#2 ∧ fieldReservedLow c = 0#8
  · rw [if_pos hr] at h
    refine ⟨hr, ?_⟩
    by_cases h1 : fieldOp c = 1#4
    · rw [if_pos h1] at h
      by_cases h0 : fieldOperand c = 0#64
      · rw [if_pos h0] at h
        exact .inl ⟨h1, h0, decodeField_ok h⟩
      · rw [if_neg h0] at h
        cases h
    rw [if_neg h1] at h
    by_cases h2 : fieldOp c = 2#4
    · rw [if_pos h2] at h
      exact .inr (.inl ⟨h2, decodeField_ok h⟩)
    rw [if_neg h2] at h
    by_cases h3 : fieldOp c = 3#4
    · rw [if_pos h3] at h
      exact .inr (.inr (.inl ⟨h3, decodeField_ok h⟩))
    rw [if_neg h3] at h
    by_cases h4 : fieldOp c = 4#4
    · rw [if_pos h4] at h
      exact .inr (.inr (.inr ⟨h4, decodeOverflow_ok h⟩))
    · rw [if_neg h4] at h
      cases h
  · rw [if_neg hr] at h
    cases h

end Sys2Proof
end

