-- ==== Sys2Proof/Laws/Arith.lean ====
section
/-! SUPPORT. The laws of sign extension, of the value ports and of the field ranges. -/

namespace Sys2Proof.Machine

/-- `sext_N` gives the one number in the signed range congruent to `v` modulo `2^N` (00 R8): it is in the range. -/
theorem sext_range {n : Nat} (hn : 1 ≤ n) (v : Int) : -2 ^ (n - 1) ≤ sext n v ∧ sext n v < 2 ^ (n - 1) := by
  obtain ⟨k, rfl⟩ : ∃ k, n = k + 1 := ⟨n - 1, by omega⟩
  have hp : (0 : Int) < 2 ^ k := by positivity
  have h0 := Int.emod_nonneg v (show (2 : Int) ^ (k + 1) ≠ 0 by positivity)
  have h1 := Int.emod_lt_of_pos v (show (0 : Int) < 2 ^ (k + 1) by positivity)
  simp only [sext, Nat.add_sub_cancel]
  rw [pow_succ] at *
  generalize hm : v % (2 ^ k * 2) = m at *
  generalize (2 : Int) ^ k = p at *
  have hq : m / p = 0 ∧ m < p ∨ m / p = 1 ∧ p ≤ m := by
    rcases lt_or_ge m p with h | h
    · exact .inl ⟨Int.ediv_eq_zero_of_lt h0 h, h⟩
    · refine .inr ⟨?_, h⟩
      rw [← Int.sub_add_cancel m p, Int.add_ediv_of_dvd_right (dvd_refl p), Int.ediv_self hp.ne',
        Int.ediv_eq_zero_of_lt (by omega) (by omega)]
      rfl
  rcases hq with ⟨hq, hlt⟩ | ⟨hq, hle⟩ <;> rw [hq] <;> simp <;> omega

/-- `sext_N(v)` is congruent to `v` modulo `2^N`. -/
theorem sext_emod (n : Nat) (v : Int) : sext n v % 2 ^ n = v % 2 ^ n := by
  unfold sext
  simp only
  split <;> simp

/-- Two numbers of one signed range congruent modulo `2^N` are equal. -/
theorem eq_of_signed_range {n : Nat} (hn : 1 ≤ n) {a b : Int} (ha : -2 ^ (n - 1) ≤ a ∧ a < 2 ^ (n - 1))
    (hb : -2 ^ (n - 1) ≤ b ∧ b < 2 ^ (n - 1)) (h : a % 2 ^ n = b % 2 ^ n) : a = b := by
  obtain ⟨k, rfl⟩ : ∃ k, n = k + 1 := ⟨n - 1, by omega⟩
  simp only [Nat.add_sub_cancel] at ha hb
  rw [pow_succ] at h
  have hd := Int.emod_emod_of_dvd (a - b) (dvd_refl ((2 : Int) ^ k * 2))
  have hz : (a - b) % (2 ^ k * 2) = 0 := by rw [Int.sub_emod, h, sub_self, Int.zero_emod]
  obtain ⟨q, hq⟩ := Int.dvd_of_emod_eq_zero hz
  generalize (2 : Int) ^ k = p at *
  have : q = 0 := by
    by_contra hne
    rcases lt_or_gt_of_ne hne with h' | h'
    · nlinarith
    · nlinarith
  subst this
  omega

/-- A 64-bit port carries a number of the signed 64-bit range (00 R6). -/
theorem toInt_ofInt_of_range {v : Int} (h : -2 ^ 63 ≤ v ∧ v < 2 ^ 63) : (BitVec.ofInt 64 v).toInt = v := by
  rw [BitVec.toInt_ofInt]
  apply Int.bmod_eq_of_le <;> omega

/-- The field range of a legal type is inside the 64-bit range, and holds 0. -/
theorem fieldRange_bounds {ty : FieldType} (h : ty.legal = true) :
    -2 ^ 63 ≤ fieldMin ty ∧ fieldMin ty ≤ 0 ∧ 0 ≤ fieldMax ty ∧ fieldMax ty < 2 ^ 63 := by
  obtain ⟨h1, h64, h63⟩ := width_bounds_of_legal h
  unfold fieldMin fieldMax
  cases hs : ty.sign
  · have hw : ty.width ≤ 63 := h63 hs
    have : (2 : Int) ^ ty.width ≤ 2 ^ 63 := pow_le_pow_right₀ (by norm_num) hw
    have : (1 : Int) ≤ 2 ^ ty.width := one_le_pow₀ (by norm_num)
    simp only
    omega
  · have : (2 : Int) ^ (ty.width - 1) ≤ 2 ^ 63 := pow_le_pow_right₀ (by norm_num) (by omega)
    have : (1 : Int) ≤ 2 ^ (ty.width - 1) := one_le_pow₀ (by norm_num)
    simp only
    omega

/-- The `cur` port gives back a number of the field's range (41 R103). -/
theorem readPort_ofInt {ty : FieldType} (h : ty.legal = true) {v : Int} (hv : fieldMin ty ≤ v ∧ v ≤ fieldMax ty) :
    readPort ty.sign (BitVec.ofInt 64 v) = v := by
  have hr := fieldRange_bounds h
  unfold readPort
  cases hs : ty.sign
  · simp only [BitVec.toNat_ofInt]
    have : 0 ≤ v := by simpa [fieldMin, hs] using hv.1
    rw [Int.emod_eq_of_lt this (by push_cast; omega)]
    omega
  · exact toInt_ofInt_of_range (by omega)

end Sys2Proof.Machine
end

