-- ==== Sys2Proof/Laws/Memory.lean ====
section
/-! SUPPORT. The laws of the memory cells: read after write, the canonical form, and that canonical memories with
equal reads are equal. -/

namespace Sys2Proof.Machine

/-! ### Reads -/

@[simp] theorem read_nil (a : Nat) : Memory.read [] a = 0#8 := rfl

theorem read_cons (b : Nat) (v : Byte) (rest : Memory) (a : Nat) :
    Memory.read ((b, v) :: rest) a = if b = a then v else Memory.read rest a := rfl

/-- An address no cell lists reads as 0. -/
theorem read_eq_zero_of_not_listed {m : Memory} {a : Nat} (h : ∀ c ∈ m, c.1 ≠ a) : m.read a = 0#8 := by
  induction m with
  | nil => rfl
  | cons c rest ih =>
    obtain ⟨b, v⟩ := c
    simp only [List.mem_cons, forall_eq_or_imp] at h
    rw [read_cons, if_neg h.1, ih h.2]

theorem read_filter_same (m : Memory) (a : Nat) : Memory.read (m.filter (fun c => c.1 != a)) a = 0#8 :=
  read_eq_zero_of_not_listed (by simp)

theorem read_filter_other (m : Memory) {a b : Nat} (h : b ≠ a) :
    Memory.read (m.filter (fun c => c.1 != a)) b = m.read b := by
  induction m with
  | nil => rfl
  | cons c rest ih =>
    obtain ⟨k, v⟩ := c
    by_cases hk : k = a
    · subst hk
      simp [read_cons, ih, Ne.symm h]
    · simp [hk, read_cons, ih]

theorem read_insert (a : Nat) (v : Byte) (m : Memory) (b : Nat) (h : ∀ c ∈ m, c.1 ≠ a) :
    Memory.read (Memory.insert a v m) b = if a = b then v else m.read b := by
  induction m with
  | nil => rfl
  | cons c rest ih =>
    obtain ⟨k, u⟩ := c
    simp only [List.mem_cons, forall_eq_or_imp] at h
    rw [Memory.insert]
    split
    · rfl
    · rw [read_cons, ih h.2, read_cons]
      by_cases hab : a = b
      · subst hab
        simp [h.1]
      · simp [hab]

/-- Reading an address just written gives what was written, in every memory. -/
@[simp] theorem read_write_same (m : Memory) (a : Nat) (v : Byte) : (m.write a v).read a = v := by
  unfold Memory.write
  split
  · next h => rw [read_filter_same, h]; rfl
  · rw [read_insert _ _ _ _ (by simp)]
    simp

/-- A write leaves every other address alone, in every memory. -/
theorem read_write_other (m : Memory) {a b : Nat} (v : Byte) (h : b ≠ a) : (m.write a v).read b = m.read b := by
  unfold Memory.write
  split
  · exact read_filter_other m h
  · rw [read_insert _ _ _ _ (by simp), if_neg (Ne.symm h), read_filter_other m h]

theorem read_write (m : Memory) (a b : Nat) (v : Byte) :
    (m.write a v).read b = if b = a then v else m.read b := by
  split
  · next h => rw [h, read_write_same]
  · next h => exact read_write_other m v h

theorem read_zero (m : Memory) (a k b : Nat) :
    (m.zero a k).read b = if a ≤ b ∧ b < a + k then 0#8 else m.read b := by
  induction k with
  | zero => rw [if_neg (by omega)]; rfl
  | succ k ih =>
    rw [Memory.zero, read_write, ih]
    split
    · next h => rw [if_pos (by omega)]
    · next h =>
      congr 1
      simp only [eq_iff_iff]
      omega

theorem read_ofBytes (bytes : List Byte) (a b : Nat) :
    (Memory.ofBytes a bytes).read b = if a ≤ b then bytes.getD (b - a) 0#8 else 0#8 := by
  induction bytes generalizing a with
  | nil => simp [Memory.ofBytes]
  | cons v rest ih =>
    rw [Memory.ofBytes]
    by_cases hab : a = b
    · subst hab
      split
      · next h => rw [ih, if_neg (by omega)]; simp [h, unlistedByte]
      · simp [read_cons]
    · have step : (if a + 1 ≤ b then rest.getD (b - (a + 1)) 0#8 else 0#8) =
          if a ≤ b then (v :: rest).getD (b - a) 0#8 else 0#8 := by
        by_cases hle : a + 1 ≤ b
        · rw [if_pos hle, if_pos (by omega), show b - a = (b - (a + 1)) + 1 by omega, List.getD_cons_succ]
        · rw [if_neg hle, if_neg (by omega)]
      split
      · rw [ih, step]
      · rw [read_cons, if_neg hab, ih, step]

/-! ### The canonical form -/

theorem wf_cons (a : Nat) (v : Byte) (rest : Memory) :
    Memory.wf ((a, v) :: rest) = true ↔ v ≠ 0#8 ∧ (∀ c ∈ rest, a < c.1) ∧ Memory.wf rest = true := by
  simp only [Memory.wf, Bool.and_eq_true, decide_eq_true_eq, List.all_eq_true, and_assoc]
  rfl

theorem wf_filter {m : Memory} (p : Host.Cell → Bool) (h : m.wf = true) : Memory.wf (m.filter p) = true := by
  induction m with
  | nil => rfl
  | cons c rest ih =>
    obtain ⟨a, v⟩ := c
    rw [wf_cons] at h
    rw [List.filter_cons]
    split
    · rw [wf_cons]
      exact ⟨h.1, fun c hc => h.2.1 c (List.mem_filter.mp hc).1, ih h.2.2⟩
    · exact ih h.2.2

theorem mem_insert {a : Nat} {v : Byte} {m : Memory} {c : Host.Cell} (h : c ∈ Memory.insert a v m) :
    c = (a, v) ∨ c ∈ m := by
  induction m with
  | nil => simpa [Memory.insert] using h
  | cons d rest ih =>
    obtain ⟨b, u⟩ := d
    rw [Memory.insert] at h
    split at h
    · simpa using h
    · rcases List.mem_cons.mp h with h | h
      · exact .inr (by simp [h])
      · exact (ih h).imp id (List.mem_cons_of_mem _)

theorem wf_insert {a : Nat} {v : Byte} {m : Memory} (hv : v ≠ 0#8) (ha : ∀ c ∈ m, c.1 ≠ a) (h : m.wf = true) :
    Memory.wf (Memory.insert a v m) = true := by
  induction m with
  | nil => exact (wf_cons ..).mpr ⟨hv, by simp, rfl⟩
  | cons d rest ih =>
    obtain ⟨b, u⟩ := d
    have hd := h
    rw [wf_cons] at hd
    simp only [List.mem_cons, forall_eq_or_imp] at ha
    rw [Memory.insert]
    split
    · next hab =>
      rw [wf_cons]
      refine ⟨hv, fun c hc => ?_, h⟩
      rcases List.mem_cons.mp hc with rfl | hc
      · exact hab
      · exact lt_trans hab (hd.2.1 c hc)
    · next hab =>
      rw [wf_cons]
      refine ⟨hd.1, fun c hc => ?_, ih ha.2 hd.2.2⟩
      rcases mem_insert hc with rfl | hc
      · exact lt_of_le_of_ne (not_lt.mp hab) ha.1
      · exact hd.2.1 c hc

/-- A write keeps the canonical form. -/
theorem wf_write {m : Memory} (a : Nat) (v : Byte) (h : m.wf = true) : (m.write a v).wf = true := by
  unfold Memory.write
  split
  · exact wf_filter _ h
  · next hv => exact wf_insert hv (by simp) (wf_filter _ h)

/-- Growth's zero bytes keep the canonical form. -/
theorem wf_zero {m : Memory} (a k : Nat) (h : m.wf = true) : (m.zero a k).wf = true := by
  induction k with
  | zero => exact h
  | succ k ih => exact wf_write _ _ ih

theorem mem_ofBytes {bytes : List Byte} {a : Nat} {c : Host.Cell} (h : c ∈ Memory.ofBytes a bytes) :
    a ≤ c.1 ∧ c.1 < a + bytes.length := by
  induction bytes generalizing a with
  | nil => simp [Memory.ofBytes] at h
  | cons v rest ih =>
    rw [Memory.ofBytes] at h
    rw [List.length_cons]
    split at h
    · have := ih h
      omega
    · rcases List.mem_cons.mp h with rfl | h
      · exact ⟨le_refl _, by omega⟩
      · have := ih h
        omega

/-- The cells of a list of bytes are canonical. -/
theorem wf_ofBytes (bytes : List Byte) (a : Nat) : (Memory.ofBytes a bytes).wf = true := by
  induction bytes generalizing a with
  | nil => rfl
  | cons v rest ih =>
    rw [Memory.ofBytes]
    split
    · exact ih _
    · next hv =>
      rw [wf_cons]
      exact ⟨hv, fun c hc => (mem_ofBytes hc).1, ih _⟩

/-- A cell of the memory after a write is the written one or was there before. -/
theorem mem_write {m : Memory} {a : Nat} {v : Byte} {c : Host.Cell} (h : c ∈ m.write a v) : c.1 = a ∨ c ∈ m := by
  unfold Memory.write at h
  split at h
  · exact .inr (List.mem_filter.mp h).1
  · rcases mem_insert h with rfl | h
    · exact .inl rfl
    · exact .inr (List.mem_filter.mp h).1

/-- A write below a bound keeps every cell below it. -/
theorem write_inside {m : Memory} {a n : Nat} {v : Byte} (ha : a < n) (h : ∀ c ∈ m, c.1 < n) :
    ∀ c ∈ m.write a v, c.1 < n := by
  intro c hc
  rcases mem_write hc with hc | hc
  · omega
  · exact h c hc

/-- Zeroing adds no cell. -/
theorem mem_zero {m : Memory} {a k : Nat} {c : Host.Cell} (h : c ∈ m.zero a k) : c ∈ m := by
  induction k with
  | zero => exact h
  | succ k ih =>
    rw [Memory.zero, Memory.write, if_pos (by rfl)] at h
    exact ih (List.mem_filter.mp h).1

theorem read_listed {m : Memory} {a : Nat} {v : Byte} (hm : m.wf = true) (h : (a, v) ∈ m) : m.read a = v := by
  induction m with
  | nil => simp at h
  | cons d rest ih =>
    obtain ⟨b, u⟩ := d
    rw [wf_cons] at hm
    rw [read_cons]
    rcases List.mem_cons.mp h with h | h
    · simp_all
    · have : b ≠ a := (hm.2.1 _ h).ne
      rw [if_neg this, ih hm.2.2 h]

/-- In a canonical memory the first cell is the least address whose byte is not 0. -/
theorem read_below_first {a : Nat} {v : Byte} {rest : Memory} (h : Memory.wf ((a, v) :: rest) = true) {b : Nat}
    (hb : b < a) : Memory.read ((a, v) :: rest) b = 0#8 := by
  rw [wf_cons] at h
  apply read_eq_zero_of_not_listed
  intro c hc
  rcases List.mem_cons.mp hc with rfl | hc
  · exact hb.ne'
  · exact (lt_trans hb (h.2.1 c hc)).ne'

/-- Canonical memories that read alike are equal: equal memories are equal data. -/
theorem memory_ext {m n : Memory} (hm : m.wf = true) (hn : n.wf = true) (h : ∀ a, m.read a = n.read a) : m = n := by
  induction m generalizing n with
  | nil =>
    cases n with
    | nil => rfl
    | cons d rest =>
      obtain ⟨b, u⟩ := d
      have hb := h b
      rw [wf_cons] at hn
      simp [read_cons] at hb
      exact absurd hb.symm hn.1
  | cons c rest ih =>
    obtain ⟨a, v⟩ := c
    cases n with
    | nil =>
      have ha := h a
      rw [wf_cons] at hm
      simp [read_cons] at ha
      exact absurd ha hm.1
    | cons d rest' =>
      obtain ⟨b, u⟩ := d
      have hv := ((wf_cons ..).mp hm).1
      have hu := ((wf_cons ..).mp hn).1
      have hab : a = b := by
        rcases lt_trichotomy a b with hlt | heq | hlt
        · have := h a
          rw [read_below_first hn hlt, read_cons, if_pos rfl] at this
          exact absurd this hv
        · exact heq
        · have := h b
          rw [read_below_first hm hlt, read_cons, if_pos rfl] at this
          exact absurd this.symm hu
      subst hab
      have huv : v = u := by simpa [read_cons] using h a
      subst huv
      rw [ih ((wf_cons ..).mp hm).2.2 ((wf_cons ..).mp hn).2.2 fun x => ?_]
      by_cases hx : a = x
      · subst hx
        rw [read_eq_zero_of_not_listed fun c hc => (((wf_cons ..).mp hm).2.1 c hc).ne',
          read_eq_zero_of_not_listed fun c hc => (((wf_cons ..).mp hn).2.1 c hc).ne']
      · simpa [read_cons, hx] using h x

end Sys2Proof.Machine
end

