-- ==== Sys2Proof/Laws/State.lean ====
section
/-! SUPPORT. One lemma per field per update of the state, so that no proof unfolds a record update. -/

namespace Sys2Proof.Machine

variable (s : State)

@[simp] theorem append_cfg (r : ResultRecord) : (s.append r).cfg = s.cfg := rfl
@[simp] theorem append_mem (r : ResultRecord) : (s.append r).mem = s.mem := rfl
@[simp] theorem append_len (r : ResultRecord) : (s.append r).len = s.len := rfl
@[simp] theorem append_policy (r : ResultRecord) : (s.append r).policy = s.policy := rfl
@[simp] theorem append_cmd (r : ResultRecord) : (s.append r).cmd = s.cmd := rfl
@[simp] theorem append_pc (r : ResultRecord) : (s.append r).pc = s.pc := rfl
@[simp] theorem append_res (r : ResultRecord) : (s.append r).res = s.res ++ [r] := rfl
@[simp] theorem append_run (r : ResultRecord) : (s.append r).run = s.run := rfl
@[simp] theorem append_fcause (r : ResultRecord) : (s.append r).fcause = s.fcause := rfl
@[simp] theorem append_fidx (r : ResultRecord) : (s.append r).fidx = s.fidx := rfl

@[simp] theorem setPolicy_cfg (p : Policy) : (s.setPolicy p).cfg = s.cfg := rfl
@[simp] theorem setPolicy_mem (p : Policy) : (s.setPolicy p).mem = s.mem := rfl
@[simp] theorem setPolicy_len (p : Policy) : (s.setPolicy p).len = s.len := rfl
@[simp] theorem setPolicy_policy (p : Policy) : (s.setPolicy p).policy = p := rfl
@[simp] theorem setPolicy_cmd (p : Policy) : (s.setPolicy p).cmd = s.cmd := rfl
@[simp] theorem setPolicy_pc (p : Policy) : (s.setPolicy p).pc = s.pc := rfl
@[simp] theorem setPolicy_res (p : Policy) : (s.setPolicy p).res = s.res := rfl
@[simp] theorem setPolicy_run (p : Policy) : (s.setPolicy p).run = s.run := rfl
@[simp] theorem setPolicy_fcause (p : Policy) : (s.setPolicy p).fcause = s.fcause := rfl
@[simp] theorem setPolicy_fidx (p : Policy) : (s.setPolicy p).fidx = s.fidx := rfl

@[simp] theorem advance_cfg : s.advance.cfg = s.cfg := rfl
@[simp] theorem advance_mem : s.advance.mem = s.mem := rfl
@[simp] theorem advance_len : s.advance.len = s.len := rfl
@[simp] theorem advance_policy : s.advance.policy = s.policy := rfl
@[simp] theorem advance_cmd : s.advance.cmd = s.cmd := rfl
@[simp] theorem advance_pc : s.advance.pc = s.pc + 1 := rfl
@[simp] theorem advance_res : s.advance.res = s.res := rfl
@[simp] theorem advance_run : s.advance.run = s.run := rfl
@[simp] theorem advance_fcause : s.advance.fcause = s.fcause := rfl
@[simp] theorem advance_fidx : s.advance.fidx = s.fidx := rfl

@[simp] theorem raise_cfg (c : FaultCause) (i : Nat) : (s.raise c i).cfg = s.cfg := rfl
@[simp] theorem raise_mem (c : FaultCause) (i : Nat) : (s.raise c i).mem = s.mem := rfl
@[simp] theorem raise_len (c : FaultCause) (i : Nat) : (s.raise c i).len = s.len := rfl
@[simp] theorem raise_policy (c : FaultCause) (i : Nat) : (s.raise c i).policy = s.policy := rfl
@[simp] theorem raise_cmd (c : FaultCause) (i : Nat) : (s.raise c i).cmd = s.cmd := rfl
@[simp] theorem raise_pc (c : FaultCause) (i : Nat) : (s.raise c i).pc = s.pc := rfl
@[simp] theorem raise_res (c : FaultCause) (i : Nat) : (s.raise c i).res = s.res := rfl
@[simp] theorem raise_run (c : FaultCause) (i : Nat) : (s.raise c i).run = .fault := rfl
@[simp] theorem raise_fcause (c : FaultCause) (i : Nat) : (s.raise c i).fcause = c := rfl
@[simp] theorem raise_fidx (c : FaultCause) (i : Nat) : (s.raise c i).fidx = i := rfl

@[simp] theorem finish_cfg : s.finish.cfg = s.cfg := rfl
@[simp] theorem finish_mem : s.finish.mem = s.mem := rfl
@[simp] theorem finish_len : s.finish.len = s.len := rfl
@[simp] theorem finish_policy : s.finish.policy = s.policy := rfl
@[simp] theorem finish_cmd : s.finish.cmd = s.cmd := rfl
@[simp] theorem finish_pc : s.finish.pc = s.pc := rfl
@[simp] theorem finish_res : s.finish.res = s.res := rfl
@[simp] theorem finish_run : s.finish.run = .done := rfl
@[simp] theorem finish_fcause : s.finish.fcause = s.fcause := rfl
@[simp] theorem finish_fidx : s.finish.fidx = s.fidx := rfl

@[simp] theorem clearRun_cfg : s.clearRun.cfg = s.cfg := rfl
@[simp] theorem clearRun_mem : s.clearRun.mem = s.mem := rfl
@[simp] theorem clearRun_len : s.clearRun.len = s.len := rfl
@[simp] theorem clearRun_policy : s.clearRun.policy = s.policy := rfl
@[simp] theorem clearRun_cmd : s.clearRun.cmd = s.cmd := rfl
@[simp] theorem clearRun_pc : s.clearRun.pc = 0 := rfl
@[simp] theorem clearRun_res : s.clearRun.res = [] := rfl
@[simp] theorem clearRun_run : s.clearRun.run = s.run := rfl
@[simp] theorem clearRun_fcause : s.clearRun.fcause = .none := rfl
@[simp] theorem clearRun_fidx : s.clearRun.fidx = 0 := rfl

@[simp] theorem setBufBit_cfg (p : Nat) (b : Bool) : (s.setBufBit p b).cfg = s.cfg := rfl
@[simp] theorem setBufBit_len (p : Nat) (b : Bool) : (s.setBufBit p b).len = s.len := rfl
@[simp] theorem setBufBit_policy (p : Nat) (b : Bool) : (s.setBufBit p b).policy = s.policy := rfl
@[simp] theorem setBufBit_cmd (p : Nat) (b : Bool) : (s.setBufBit p b).cmd = s.cmd := rfl
@[simp] theorem setBufBit_pc (p : Nat) (b : Bool) : (s.setBufBit p b).pc = s.pc := rfl
@[simp] theorem setBufBit_res (p : Nat) (b : Bool) : (s.setBufBit p b).res = s.res := rfl
@[simp] theorem setBufBit_run (p : Nat) (b : Bool) : (s.setBufBit p b).run = s.run := rfl
@[simp] theorem setBufBit_fcause (p : Nat) (b : Bool) : (s.setBufBit p b).fcause = s.fcause := rfl
@[simp] theorem setBufBit_fidx (p : Nat) (b : Bool) : (s.setBufBit p b).fidx = s.fidx := rfl

@[simp] theorem grow_cfg (k : Nat) : (s.grow k).cfg = s.cfg := rfl
@[simp] theorem grow_mem (k : Nat) : (s.grow k).mem = s.mem.zero s.len k := rfl
@[simp] theorem grow_len (k : Nat) : (s.grow k).len = s.len + k := rfl
@[simp] theorem grow_policy (k : Nat) : (s.grow k).policy = s.policy := rfl
@[simp] theorem grow_cmd (k : Nat) : (s.grow k).cmd = s.cmd := rfl
@[simp] theorem grow_pc (k : Nat) : (s.grow k).pc = s.pc := rfl
@[simp] theorem grow_res (k : Nat) : (s.grow k).res = s.res := rfl
@[simp] theorem grow_run (k : Nat) : (s.grow k).run = s.run := rfl
@[simp] theorem grow_fcause (k : Nat) : (s.grow k).fcause = s.fcause := rfl
@[simp] theorem grow_fidx (k : Nat) : (s.grow k).fidx = s.fidx := rfl

end Sys2Proof.Machine
end

