-- ==== Sys2Proof/Laws/Codec.lean ====
section
/-! SUPPORT. The laws of the bit codec's parts: bits of the buffer, growth, the write loop, and what a guarded write
can answer. -/

namespace Sys2Proof.Machine

/-! ### Bits and bytes -/

theorem bufBit_of_lt {s : State} {p : Nat} (h : p < s.bitLen) :
    s.bufBit p = (s.mem.read (p / 8)).getLsbD (7 - p % 8) := if_pos h

/-- Every position at or past the end reads as 0. -/
theorem bufBit_of_le {s : State} {p : Nat} (h : s.bitLen ≤ p) : s.bufBit p = false := if_neg (not_lt.mpr h)

/-- A bit of the buffer is a bit of its byte, past the end too. -/
theorem bufBit_eq_byteAt (s : State) (p : Nat) : s.bufBit p = (s.byteAt (p / 8)).getLsbD (7 - p % 8) := by
  unfold State.bufBit State.byteAt State.bitLen
  by_cases h : p < 8 * s.len
  · rw [if_pos h, if_pos (by omega)]
  · rw [if_neg h, if_neg (by omega)]
    simp

/-- States whose bits agree everywhere have the same bytes. -/
theorem byteAt_eq_of_bufBit_eq {s t : State} {a : Nat} (h : ∀ p, p / 8 = a → t.bufBit p = s.bufBit p) :
    t.byteAt a = s.byteAt a := by
  apply BitVec.eq_of_getLsbD_eq
  intro i hi
  have := h (8 * a + (7 - i)) (by omega)
  rw [bufBit_eq_byteAt, bufBit_eq_byteAt, show (8 * a + (7 - i)) / 8 = a by omega,
    show 7 - (8 * a + (7 - i)) % 8 = i by omega] at this
  exact this

theorem getLsbD_setByteBit (v : Byte) (i : Nat) (b : Bool) (j : Nat) (hi : i < 8) :
    (setByteBit v i b).getLsbD j = if j = i then b else v.getLsbD j := by
  by_cases hj : j < 8
  · unfold setByteBit
    cases b <;> by_cases hij : i = j <;>
      simp [hj, hij, eq_comm]
  · rw [if_neg (by omega), BitVec.getLsbD_of_ge _ _ (by omega), BitVec.getLsbD_of_ge _ _ (by omega)]

@[simp] theorem bitLen_setBufBit (s : State) (p : Nat) (b : Bool) : (s.setBufBit p b).bitLen = s.bitLen := rfl
@[simp] theorem bitLen_grow (s : State) (k : Nat) : (s.grow k).bitLen = s.bitLen + 8 * k := by
  simp [State.bitLen, Nat.mul_add]

/-- `SetBufBit` sets its bit and no other. -/
theorem bufBit_setBufBit (s : State) {p : Nat} (b : Bool) (q : Nat) (hp : p < s.bitLen) :
    (s.setBufBit p b).bufBit q = if q = p then b else s.bufBit q := by
  by_cases hq : q < s.bitLen
  · rw [bufBit_of_lt (by simpa using hq), bufBit_of_lt hq]
    simp only [State.setBufBit, read_write]
    by_cases hbyte : q / 8 = p / 8
    · rw [if_pos hbyte, getLsbD_setByteBit _ _ _ _ (by omega), hbyte]
      by_cases hqp : q = p
      · rw [if_pos (by omega), if_pos hqp]
      · rw [if_neg (by omega), if_neg hqp]
    · rw [if_neg hbyte, if_neg (by omega)]
  · rw [bufBit_of_le (by simpa using hq), if_neg (by omega), bufBit_of_le (by omega)]

/-- Growth changes no bit: the new bytes read as they read before, as 0. -/
@[simp] theorem bufBit_grow (s : State) (k q : Nat) : (s.grow k).bufBit q = s.bufBit q := by
  by_cases hq : q < s.bitLen
  · rw [bufBit_of_lt (by simp; omega), bufBit_of_lt hq, grow_mem, read_zero, if_neg]
    simp only [State.bitLen] at hq
    omega
  · rw [bufBit_of_le (not_lt.mp hq)]
    by_cases hk : q < (s.grow k).bitLen
    · rw [bufBit_of_lt hk, grow_mem, read_zero, if_pos]
      · simp
      · simp only [State.bitLen, grow_len] at hq hk
        omega
    · exact bufBit_of_le (not_lt.mp hk)

/-! ### The extractor's loop -/

theorem shiftIn_lt (s : State) (off w : Nat) : shiftIn s off w < 2 ^ w := by
  induction w with
  | zero => simp [shiftIn]
  | succ w ih =>
    have : (s.bufBit (off + w)).toNat ≤ 1 := Bool.toNat_le _
    rw [shiftIn, pow_succ]
    omega

/-- The bit at position `off + i` is bit `w-1-i` of the raw value (20 R31). -/
theorem testBit_shiftIn (s : State) (off : Nat) {w i : Nat} (h : i < w) :
    (shiftIn s off w).testBit (w - 1 - i) = s.bufBit (off + i) := by
  induction w with
  | zero => omega
  | succ w ih =>
    rw [shiftIn]
    rcases Nat.lt_succ_iff_lt_or_eq.mp h with h | rfl
    · have hb : (s.bufBit (off + w)).toNat < 2 := Bool.toNat_lt _
      rw [show w + 1 - 1 - i = (w - 1 - i) + 1 by omega, Nat.testBit_succ,
        show (2 * shiftIn s off w + (s.bufBit (off + w)).toNat) / 2 = shiftIn s off w by omega, ih h]
    · cases hb : s.bufBit (off + i) <;> simp

/-- The raw value depends on the field's bits only. -/
theorem shiftIn_congr {s t : State} {off w : Nat} (h : ∀ i, i < w → t.bufBit (off + i) = s.bufBit (off + i)) :
    shiftIn t off w = shiftIn s off w := by
  induction w with
  | zero => rfl
  | succ w ih => rw [shiftIn, shiftIn, ih fun i hi => h i (by omega), h w (by omega)]

/-- A raw read that starts past the end gives 0, guard or no guard (40 R78). -/
theorem shiftIn_past_end {s : State} {off : Nat} (h : s.bitLen ≤ off) (w : Nat) : shiftIn s off w = 0 := by
  induction w with
  | zero => rfl
  | succ w ih => rw [shiftIn, ih, bufBit_of_le (by omega)]; rfl

theorem extract_eq_shiftIn (s : State) (off w : Nat) : extract s off w = shiftIn s off w := by
  unfold extract
  split
  · next h => exact (shiftIn_past_end h.le w).symm
  · rfl

/-! ### The inserter's loop -/

/-- The loop changes the cells and nothing else. -/
theorem writeBits_eq (off w v : Nat) (s : State) (k : Nat) :
    writeBits off w v s k = { s with mem := (writeBits off w v s k).mem } := by
  induction k with
  | zero => rfl
  | succ k ih =>
    rw [writeBits]
    conv_lhs => rw [ih]
    simp only [State.setBufBit]

@[simp] theorem writeBits_len (off w v : Nat) (s : State) (k : Nat) : (writeBits off w v s k).len = s.len := by
  rw [writeBits_eq]

@[simp] theorem bitLen_writeBits (off w v : Nat) (s : State) (k : Nat) :
    (writeBits off w v s k).bitLen = s.bitLen := by
  rw [State.bitLen, writeBits_len, State.bitLen]

/-- The loop sets the first `k` target bits, most significant first, and no other bit. -/
theorem bufBit_writeBits {off w v : Nat} {s : State} (h : off + w ≤ s.bitLen) {k : Nat} (hk : k ≤ w) (q : Nat) :
    (writeBits off w v s k).bufBit q =
      if off ≤ q ∧ q < off + k then v.testBit (w - 1 - (q - off)) else s.bufBit q := by
  induction k with
  | zero => rw [if_neg (by omega)]; rfl
  | succ k ih =>
    rw [writeBits, bufBit_setBufBit _ _ _ (by simp; omega), ih (by omega)]
    by_cases hq : q = off + k
    · subst hq
      rw [if_pos rfl, if_pos (by omega), show off + k - off = k by omega]
    · rw [if_neg hq]
      congr 1
      simp only [eq_iff_iff]
      omega

/-- The loop keeps the memory canonical. -/
theorem wf_writeBits {off w v : Nat} {s : State} (h : s.mem.wf = true) (k : Nat) :
    (writeBits off w v s k).mem.wf = true := by
  induction k with
  | zero => exact h
  | succ k ih => exact wf_write _ _ ih

/-- The loop keeps every cell below `LEN`. -/
theorem inside_writeBits {off w v : Nat} {s : State} (hw : off + w ≤ s.bitLen) (h : ∀ c ∈ s.mem, c.1 < s.len)
    {k : Nat} (hk : k ≤ w) : ∀ c ∈ (writeBits off w v s k).mem, c.1 < s.len := by
  induction k with
  | zero => exact h
  | succ k ih =>
    refine write_inside ?_ (ih (by omega))
    simp only [State.bitLen] at hw
    omega

/-- Growth keeps every cell below `LEN`. -/
theorem inside_grow {s : State} (h : ∀ c ∈ s.mem, c.1 < s.len) (k : Nat) :
    ∀ c ∈ (s.grow k).mem, c.1 < (s.grow k).len := by
  intro c hc
  have := h c (mem_zero hc)
  rw [grow_len]
  omega

/-! ### The guard, the capacity check and growth -/

theorem growthOf_spec {s : State} {off w : Nat} (h : off + w > s.bitLen) :
    off + w ≤ s.bitLen + 8 * growthOf s off w ∧ s.bitLen + 8 * growthOf s off w < off + w + 8 := by
  unfold growthOf ceilDiv
  omega

/-- Everything a guarded write can answer: a no-op, a write in place, a write after growth that fits, or CAPACITY. -/
theorem writeGuarded_cases (s : State) (off w : Nat) (put : State → State) :
    (off > s.bitLen ∧ writeGuarded s off w put = .ok ⟨s, false⟩) ∨
    (off ≤ s.bitLen ∧ off + w ≤ s.bitLen ∧ writeGuarded s off w put = .ok ⟨put s, true⟩) ∨
    (off ≤ s.bitLen ∧ off + w > s.bitLen ∧ s.cfg.cap.fits (s.len + growthOf s off w) = true ∧
      writeGuarded s off w put = .ok ⟨put (s.grow (growthOf s off w)), true⟩) ∨
    (off ≤ s.bitLen ∧ off + w > s.bitLen ∧ s.cfg.cap.fits (s.len + growthOf s off w) = false ∧
      writeGuarded s off w put = .error .capacity) := by
  unfold writeGuarded
  by_cases h1 : off > s.bitLen
  · exact .inl ⟨h1, if_pos h1⟩
  · rw [if_neg h1]
    by_cases h2 : off + w > s.bitLen
    · rw [if_pos h2]
      cases h3 : s.cfg.cap.fits (s.len + growthOf s off w)
      · exact .inr (.inr (.inr ⟨not_lt.mp h1, h2, rfl, rfl⟩))
      · exact .inr (.inr (.inl ⟨not_lt.mp h1, h2, rfl, rfl⟩))
    · exact .inr (.inl ⟨not_lt.mp h1, not_lt.mp h2, if_neg h2⟩)

/-- A field write changes the cells and `LEN` and nothing else. -/
theorem fieldWrite_ok {s : State} {r : WriteOutput} {off w : Nat} {val : Int} (h : fieldWrite s off w val = .ok r) :
    r.state = { s with mem := r.state.mem, len := r.state.len } := by
  unfold fieldWrite at h
  rcases writeGuarded_cases s off w (fun t => writeBits off w (lowBits w val) t w) with
    ⟨_, h'⟩ | ⟨_, _, h'⟩ | ⟨_, _, _, h'⟩ | ⟨_, _, _, h'⟩ <;> rw [h'] at h
  · cases h; rfl
  · cases h
    rw [writeBits_eq]
  · cases h
    rw [writeBits_eq]
    rfl
  · cases h

/-- The inserter says that it wrote exactly when the write guard let it through (40 R74). -/
theorem fieldWrite_wrote {s : State} {r : WriteOutput} {off w : Nat} {val : Int}
    (h : fieldWrite s off w val = .ok r) : r.wrote = decide (off ≤ s.bitLen) := by
  unfold fieldWrite at h
  rcases writeGuarded_cases s off w (fun t => writeBits off w (lowBits w val) t w) with
    ⟨hg, h'⟩ | ⟨hg, _, h'⟩ | ⟨hg, _, _, h'⟩ | ⟨_, _, _, h'⟩ <;> rw [h'] at h <;> cases h
  · exact (decide_eq_false (not_le.mpr hg)).symm
  · exact (decide_eq_true hg).symm
  · exact (decide_eq_true hg).symm

/-- The only cause a field write raises is CAPACITY. -/
theorem fieldWrite_error {s : State} {off w : Nat} {val : Int} {c : FaultCause}
    (h : fieldWrite s off w val = .error c) : c = .capacity := by
  unfold fieldWrite at h
  rcases writeGuarded_cases s off w (fun t => writeBits off w (lowBits w val) t w) with
    ⟨_, h'⟩ | ⟨_, _, h'⟩ | ⟨_, _, _, h'⟩ | ⟨_, _, _, h'⟩ <;> rw [h'] at h <;> cases h
  rfl

/-- A field write keeps the memory canonical and inside `LEN`, and `LEN` inside `CAP`. -/
theorem fieldWrite_keeps {s : State} {r : WriteOutput} {off w : Nat} {val : Int} (hm : s.mem.wf = true)
    (hi : ∀ c ∈ s.mem, c.1 < s.len) (hc : s.cfg.cap.fits s.len = true) (h : fieldWrite s off w val = .ok r) :
    r.state.mem.wf = true ∧ (∀ c ∈ r.state.mem, c.1 < r.state.len) ∧ r.state.cfg.cap.fits r.state.len = true := by
  unfold fieldWrite at h
  rcases writeGuarded_cases s off w (fun t => writeBits off w (lowBits w val) t w) with
    ⟨_, h'⟩ | ⟨_, hw, h'⟩ | ⟨_, hw, hfit, h'⟩ | ⟨_, _, _, h'⟩ <;> rw [h'] at h <;> cases h
  · exact ⟨hm, hi, hc⟩
  · refine ⟨wf_writeBits hm w, ?_, ?_⟩
    · rw [writeBits_len]
      exact inside_writeBits hw hi le_rfl
    · rw [writeBits_eq]
      exact hc
  · refine ⟨wf_writeBits (wf_zero _ _ hm) w, ?_, ?_⟩
    · rw [writeBits_len]
      refine inside_writeBits ?_ (inside_grow hi _) le_rfl
      have := (growthOf_spec hw).1
      simpa using this
    · rw [writeBits_eq]
      exact hfit

end Sys2Proof.Machine
end

