-- ==== Sys2Proof/Laws/Host.lean ====
section
/-! SUPPORT. What the host's actions can do, said once, and what the assembler's tokens can give. -/

namespace Sys2Proof.Machine

/-- Pre-validation finds nothing exactly when every word is legal. -/
theorem firstIllegal_eq_none {words : List CommandWord} :
    firstIllegal words = none ↔ ∀ c ∈ words, legal c = true := by
  simp [firstIllegal]

/-- Everything a start can do: nothing while running; else run a batch of legal words, or reject it. -/
theorem hostStart_cases (s : State) :
    (s.run = .running ∧ hostStart s = s) ∨
    (s.run ≠ .running ∧ (∀ c ∈ s.cmd, legal c = true) ∧ hostStart s = { s.clearRun with run := .running }) ∨
    (s.run ≠ .running ∧ ∃ i, firstIllegal s.cmd = some i ∧ hostStart s = s.clearRun.raise .illegalCmd i) := by
  unfold hostStart
  by_cases hr : s.run = .running
  · exact .inl ⟨hr, if_pos hr⟩
  · rw [if_neg hr]
    cases hf : firstIllegal s.cmd with
    | none => exact .inr (.inl ⟨hr, firstIllegal_eq_none.mp hf, rfl⟩)
    | some i => exact .inr (.inr ⟨hr, i, rfl, rfl⟩)

/-- Everything a buffer load can do: nothing, while running or when too long, or replace the buffer. -/
theorem hostLoadBuffer_cases (bytes : List Byte) (s : State) :
    hostLoadBuffer bytes s = s ∨
    (s.run ≠ .running ∧ s.cfg.cap.fits bytes.length = true ∧
      hostLoadBuffer bytes s = { s with mem := Memory.ofBytes 0 bytes, len := bytes.length }) := by
  unfold hostLoadBuffer
  by_cases hr : s.run = .running
  · exact .inl (if_pos hr)
  · rw [if_neg hr]
    by_cases hf : s.cfg.cap.fits bytes.length = true
    · exact .inr ⟨hr, hf, if_pos hf⟩
    · exact .inl (if_neg hf)

/-- Everything a batch load can do: nothing, while running or when too long, or replace the batch. -/
theorem hostLoadBatch_cases (words : List CommandWord) (s : State) :
    hostLoadBatch words s = s ∨
    (s.run ≠ .running ∧ s.cfg.qcap.fits words.length = true ∧ hostLoadBatch words s = { s with cmd := words }) := by
  unfold hostLoadBatch
  by_cases hr : s.run = .running
  · exact .inl (if_pos hr)
  · rw [if_neg hr]
    by_cases hf : s.cfg.qcap.fits words.length = true
    · exact .inr ⟨hr, hf, if_pos hf⟩
    · exact .inl (if_neg hf)

/-- What fits a capacity fits with fewer entries too. -/
theorem fits_mono {c : Capacity} {m n : Nat} (h : m ≤ n) (hn : c.fits n = true) : c.fits m = true := by
  cases c with
  | infinite => rfl
  | finite k _ =>
    simp only [Capacity.fits, decide_eq_true_eq] at *
    omega

/-- `MemWrite` changes the cells and nothing else. -/
theorem memWriteFirst_eq (s : State) (addr n v k : Nat) :
    s.memWriteFirst addr n v k = { s with mem := (s.memWriteFirst addr n v k).mem } := by
  induction k with
  | zero => rfl
  | succ k ih =>
    rw [State.memWriteFirst]
    conv_lhs => rw [ih]

/-- A `type` token names a legal type. -/
theorem typeToken_legal {t : Token} {ty : FieldType} (h : typeToken t = some ty) : ty.legal = true := by
  cases t with
  | nil => cases h
  | cons c digits =>
    simp only [typeToken] at h
    split at h
    · split at h
      · next hl =>
        cases h
        exact hl
      · cases h
    · cases h

end Sys2Proof.Machine
end

