-- ==== Sys2Proof/Laws/Instr.lean ====
section
/-! SUPPORT. What the shared operations of the meanings and the step can answer, said once. -/

namespace Sys2Proof.Machine

/-- A command that ends in a next state completed in what it computed, or entered a fault and changed nothing else. -/
theorem complete_next {s t : State} {r : Except FaultCause State} (h : complete s r = .next t) :
    (∃ u, r = .ok u ∧ t = u.advance) ∨ ∃ c, r = .error c ∧ t = s.raise c s.pc := by
  cases r with
  | ok u =>
    cases h
    exact .inl ⟨u, rfl, rfl⟩
  | error c =>
    cases h
    exact .inr ⟨c, rfl, rfl⟩

/-- A command always ends in a next state. -/
theorem complete_answers (s : State) (r : Except FaultCause State) : ∃ t, complete s r = .next t := by
  cases r <;> exact ⟨_, rfl⟩

/-- An instruction that answers a next state had a legal type. -/
theorem withLegalType_next {ty : FieldType} {o : Host.Outcome State Fault Refusal} {t : State}
    (h : withLegalType ty o = .next t) : ty.legal = true ∧ o = .next t := by
  unfold withLegalType at h
  split at h
  · next hl => exact ⟨hl, h⟩
  · cases h

theorem withLegalType_of_legal {ty : FieldType} (o : Host.Outcome State Fault Refusal) (h : ty.legal = true) :
    withLegalType ty o = o := if_pos h

/-- Everything an instruction that answers a next state can have done. It completed: `PC` advanced, the registers it does
not write kept, one proper record appended or (OVERFLOW) none, and the buffer as it was or as one field write left it.
Or it raised CAPACITY and changed nothing else. -/
theorem exec_next {i : Instr} {s t : State} (h : exec i s = .next t) :
    (∃ u : State, t = u.advance ∧ u = { s with mem := u.mem, len := u.len, policy := u.policy, res := u.res } ∧
      (((∀ p, i ≠ .overflow p) ∧ ∃ r : ResultRecord, (r.refused = true → r.value = 0#64 ∧ r.ovf ≠ .none) ∧
          u.res = s.res ++ [r]) ∨ ((∃ p, i = .overflow p) ∧ u.res = s.res)) ∧
      ((u.mem = s.mem ∧ u.len = s.len) ∨
        ∃ off w val b, fieldWrite s off w val = .ok b ∧ u.mem = b.state.mem ∧ u.len = b.state.len)) ∨
    t = s.raise .capacity s.pc := by
  cases i with
  | get ty off =>
    rcases complete_next (withLegalType_next h).2 with ⟨u, hu, rfl⟩ | ⟨c, hc, rfl⟩
    · cases hu
      exact .inl ⟨_, rfl, rfl, .inl ⟨nofun, plainRecord _, fun h => (Bool.false_ne_true h).elim, rfl⟩,
        .inl ⟨rfl, rfl⟩⟩
    · cases hc
  | set ty off v =>
    have h := (withLegalType_next h).2
    cases hw : fieldWrite s (effectiveAddress ty off) ty.width v.toInt with
    | ok b =>
      rw [hw] at h
      cases h
      refine .inl ⟨_, rfl, ?_, .inl ⟨nofun, plainRecord (fieldRead s (effectiveAddress ty off) ty),
        fun h => (Bool.false_ne_true h).elim, ?_⟩,
        .inr ⟨_, _, _, b, hw, rfl, rfl⟩⟩ <;>
        (beta_reduce; rw [fieldWrite_ok hw]; rfl)
    | error e =>
      rw [hw] at h
      cases h
      rw [fieldWrite_error hw]
      exact .inr rfl
  | incrby ty off v =>
    have h := (withLegalType_next h).2
    split at h
    · next hr =>
      cases h
      simp only [refuses, decide_eq_true_eq] at hr
      exact .inl ⟨_, rfl, rfl, .inl ⟨nofun, _, fun _ => ⟨rfl, hr.2⟩, rfl⟩, .inl ⟨rfl, rfl⟩⟩
    · cases hw : fieldWrite s (effectiveAddress ty off) ty.width
          (incrbyCompute ty (effectiveAddress ty off) v s).1 with
      | ok b =>
        rw [hw] at h
        cases h
        refine .inl ⟨_, rfl, ?_, .inl ⟨nofun,
          ⟨false, (incrbyCompute ty (effectiveAddress ty off) v s).2,
            BitVec.ofInt 64 (incrbyCompute ty (effectiveAddress ty off) v s).1⟩, fun h => (Bool.false_ne_true h).elim, ?_⟩,
          .inr ⟨_, _, _, b, hw, rfl, rfl⟩⟩ <;>
          (beta_reduce; rw [fieldWrite_ok hw]; rfl)
      | error e =>
        rw [hw] at h
        cases h
        rw [fieldWrite_error hw]
        exact .inr rfl
  | overflow p =>
    cases h
    exact .inl ⟨_, rfl, rfl, .inr ⟨⟨p, rfl⟩, rfl⟩, .inl ⟨rfl, rfl⟩⟩

/-- The step while running, away from the end of the batch, on the command there. -/
theorem fetch_of_lt {s : State} (h : s.pc < s.ncmd) : s.fetch = some (s.cmd[s.pc]'h) := List.getElem?_eq_getElem h

/-- What a step that answers a next state did: it ended the batch, ran the decoded command, or met an illegal word. -/
theorem step_next {s t : State} (h : step s = .next t) :
    s.run = .running ∧
      ((s.pc = s.ncmd ∧ t = s.finish) ∨
       ∃ c, s.fetch = some c ∧ ((∃ i, decode c = .ok i ∧ exec i s = .next t) ∨
         ((∃ e, decode c = .error e) ∧ t = s.raise .illegalCmd s.pc))) := by
  unfold step sequencerStep at h
  by_cases hr : s.run = .running
  · rw [if_pos hr] at h
    refine ⟨hr, ?_⟩
    unfold runningStep at h
    by_cases hp : s.pc = s.ncmd
    · rw [if_pos hp] at h
      cases h
      exact .inl ⟨hp, rfl⟩
    · rw [if_neg hp] at h
      cases hf : s.fetch with
      | none => rw [hf] at h; cases h
      | some c =>
        rw [hf] at h
        refine .inr ⟨c, rfl, ?_⟩
        simp only [executeWord] at h
        cases hd : decode c with
        | ok i => rw [hd] at h; exact .inl ⟨i, rfl, h⟩
        | error e =>
          rw [hd] at h
          cases h
          exact .inr ⟨⟨e, rfl⟩, rfl⟩
  · rw [if_neg hr] at h
    cases h

/-- The word placed for the fetch is the word fetched. -/
theorem placeCommand_get (w : CommandWord) (i : Nat) (cmd : List CommandWord) :
    (placeCommand w i cmd)[i]? = some w := by
  induction i generalizing cmd with
  | zero => cases cmd <;> rfl
  | succ i ih => cases cmd <;> simpa [placeCommand] using ih _

/-- The next step of `withFetchWord` executes exactly the placed word. -/
theorem fetch_withFetchWord (s : State) (nbits w : Nat) :
    (s.withFetchWord nbits w).fetch = some (tableWord nbits w) := placeCommand_get _ _ _

end Sys2Proof.Machine
end

