-- ==== Sys2Proof/Laws/PerInstr.lean ====
section
/-! SUPPORT. A statement made per instruction, about the instruction as syntax: the encoder's word of a well-formed
instruction is legal (30 R58, R67). -/

namespace Sys2Proof.Laws.EncodesLegally

/-- The word of `i` is legal when `i` is well formed. -/
def Statement (i : Instr) : Prop := i.wellFormed = true → legal (Sys2Proof.encode i) = true

theorem get (ty : FieldType) (off : Offset) : Statement (.get ty off) := by
  intro h
  have hw := legalWidth_encodeField (op := 1#4) off 0#64 (show ty.legal = true from h)
  simp only [legal, Sys2Proof.encode, hw]
  simp [encodeField]

theorem set (ty : FieldType) (off : Offset) (value : Value) : Statement (.set ty off value) := by
  intro h
  have hw := legalWidth_encodeField (op := 2#4) off value (show ty.legal = true from h)
  simp only [legal, Sys2Proof.encode, hw]
  simp [encodeField]

theorem incrby (ty : FieldType) (off : Offset) (increment : Value) : Statement (.incrby ty off increment) := by
  intro h
  have hw := legalWidth_encodeField (op := 3#4) off increment (show ty.legal = true from h)
  simp only [legal, Sys2Proof.encode, hw]
  simp [encodeField]

theorem overflow (policy : Policy) : Statement (.overflow policy) := by
  intro _
  cases policy <;> simp [legal, Sys2Proof.encode, Policy.code]

end Sys2Proof.Laws.EncodesLegally
end

