-- ==== Sys2Proof/Tests/Slice0.lean ====
section
/-! SUPPORT. Tests: the well-formedness smoke test, words and vectors of 95_test_vectors.md (every expected value is the
spec's), and for each statement with hypotheses a witness that meets them. -/

-- The tests are kernel evaluations; elaborated side by side they ask for more threads than a check of the package has.
set_option Elab.async false

namespace Sys2Proof.Tests

open Sys2Proof Sys2Proof.Machine

/-! ### Helpers -/

/-- A BFU after reset with a buffer loaded. -/
def withBuffer (bytes : List Byte) : State :=
  { State.reset with mem := Memory.ofBytes 0 bytes, len := bytes.length }

/-- The buffer `A5 3C F0` of tables X, W and I. -/
def bufX : State := withBuffer [0xA5, 0x3C, 0xF0]

/-- The same BFU with `CAP = n` bytes. -/
def withCap (n : Nat) (h : 1 ≤ n) (s : State) : State := { s with cfg := { s.cfg with cap := .finite n h } }

/-- The four zero bytes of W16 and P6, with `CAP = 4`. -/
def bufFull : State := withCap 4 (by decide) (withBuffer [0, 0, 0, 0])

/-- The same BFU running a batch. -/
def running (words : List CommandWord) (s : State) : State := { s with cmd := words, run := .running }

/-- The next state of an outcome, if it is one. -/
def nextOf (o : Host.Outcome State Fault Refusal) : Option State :=
  match o with
  | .next t => some t
  | .fault _ => none
  | .refused _ => none

/-- What a vector shows of an instruction: the packed records, the buffer and the policy afterwards. -/
def shows (o : Host.Outcome State Fault Refusal) : Option (List (BitVec 67) × List Byte × Policy) :=
  (nextOf o).map (fun t => (t.res.map ResultRecord.pack, t.bufferBytes, t.policy))

/-- The buffer after a field write, if it raised no fault. -/
def bytesAfter (r : Except FaultCause WriteOutput) : Option (List Byte) :=
  match r with
  | .ok o => some o.state.bufferBytes
  | .error _ => none

/-- Whether a field write wrote, if it raised no fault. -/
def wroteOf (r : Except FaultCause WriteOutput) : Option Bool :=
  match r with
  | .ok o => some o.wrote
  | .error _ => none

/-- A 64-bit port value. -/
def port (v : Int) : Value := BitVec.ofInt 64 v

def u (w : Nat) : FieldType := { sign := .unsigned, width := w }
def i (w : Nat) : FieldType := { sign := .signed, width := w }

/-! ### Well-formedness: an ill-formed term for each check -/

/-- `u0` and `i0`: the width is at least 1 (30 R54). -/
theorem test_width_zero_is_ill_formed :
    (Instr.get (u 0) (.absolute 0)).wellFormed = false ∧ (Instr.set (i 0) (.absolute 0) 0).wellFormed = false := by
  decide

/-- `u64` and `i65`: the width is at most 63 or 64 (30 R54, 90 C7). -/
theorem test_width_over_is_ill_formed :
    (Instr.get (u 64) (.absolute 0)).wellFormed = false ∧ (Instr.incrby (i 65) (.element 0) 0).wellFormed = false := by
  decide

/-- `u63` and `i64` are legal, and so is every OVERFLOW. -/
theorem test_widest_are_well_formed :
    (Instr.get (u 63) (.absolute 0)).wellFormed = true ∧ (Instr.set (i 64) (.absolute 0) 0).wellFormed = true ∧
      (Instr.overflow .fail).wellFormed = true := by
  decide

/-! ### Decoding: words of table E and of 30 R67, written from 30 R51 -/

theorem test_decode_get :
    decodeTableWord 160 0x1001000000000000000000000000000000000000 = some (.get (u 1) (.absolute 0)) ∧
    decodeTableWord 160 0x1340000000000000000000030000000000000000 = some (.get (i 64) (.element 3)) ∧
    decodeTableWord 160 0x103F0000FFFFFFFFFFFFFFFF0000000000000000 =
      some (.get (u 63) (.absolute 18446744073709551615)) ∧
    decodeTableWord 160 0x1018000000000000000000000000000000000000 = some (.get (u 24) (.absolute 0)) := by
  decide +kernel

theorem test_decode_set :
    decodeTableWord 160 0x2208000000000000000000010000000000000027 = some (.set (u 8) (.element 1) 39) ∧
    decodeTableWord 160 0x2140000000000000000000008000000000000000 =
      some (.set (i 64) (.absolute 0) (port (-9223372036854775808))) ∧
    decodeTableWord 160 0x200500000000000000000007000000000000001F = some (.set (u 5) (.absolute 7) 31) := by
  decide +kernel

theorem test_decode_incrby :
    decodeTableWord 160 0x310500000000000000000006FFFFFFFFFFFFFFFF =
      some (.incrby (i 5) (.absolute 6) (port (-1))) ∧
    decodeTableWord 160 0x323F000000000000000000007FFFFFFFFFFFFFFF =
      some (.incrby (u 63) (.element 0) 9223372036854775807) ∧
    decodeTableWord 160 0x330800000000000000000002FFFFFFFFFFFFFF80 =
      some (.incrby (i 8) (.element 2) (port (-128))) := by
  decide +kernel

theorem test_decode_overflow :
    decodeTableWord 160 0x4000000000000000000000000000000000000000 = some (.overflow .wrap) ∧
    decodeTableWord 160 0x4000010000000000000000000000000000000000 = some (.overflow .saturate) ∧
    decodeTableWord 160 0x4000020000000000000000000000000000000000 = some (.overflow .fail) := by
  decide +kernel

/-- Table L: each illegal word is refused, by name. -/
theorem test_illegal_words_by_name :
    decode 0x0000000000000000000000000000000000000000 = .error .unknownOp ∧
    decode 0x5008000000000000000000000000000000000000 = .error .unknownOp ∧
    decode 0xF008000000000000000000000000000000000000 = .error .unknownOp ∧
    decode 0x1000000000000000000000000000000000000000 = .error .illegalWidth ∧
    decode 0x1041000000000000000000000000000000000000 = .error .illegalWidth ∧
    decode 0x1141000000000000000000000000000000000000 = .error .illegalWidth ∧
    decode 0x1040000000000000000000000000000000000000 = .error .illegalWidth ∧
    decode 0x1008000000000000000000000000000000000001 = .error .operandNotZero ∧
    decode 0x1008010000000000000000000000000000000000 = .error .policyNotZero ∧
    decode 0x1408000000000000000000000000000000000000 = .error .reservedNotZero ∧
    decode 0x1808000000000000000000000000000000000000 = .error .reservedNotZero ∧
    decode 0x1008000100000000000000000000000000000000 = .error .reservedNotZero := by
  decide +kernel

/-- Table L, its second half. -/
theorem test_illegal_words_of_set_incrby_overflow :
    decode 0x2208020000000000000000000000000000000027 = .error .policyNotZero ∧
    decode 0x30FF000000000000000000000000000000000001 = .error .illegalWidth ∧
    decode 0x4000030000000000000000000000000000000000 = .error .illegalPolicy ∧
    decode 0x4008010000000000000000000000000000000000 = .error .unusedNotZero ∧
    decode 0x4100010000000000000000000000000000000000 = .error .unusedNotZero ∧
    decode 0x4200010000000000000000000000000000000000 = .error .unusedNotZero ∧
    decode 0x4000010000000000000000010000000000000000 = .error .unusedNotZero ∧
    decode 0x4000010000000000000000000000000000000001 = .error .unusedNotZero := by
  decide +kernel

/-! ### Units -/

/-- Table A. -/
theorem test_effective_address :
    effectiveAddress (u 8) (.element 2) = 16 ∧ effectiveAddress (i 5) (.absolute 6) = 6 ∧
    effectiveAddress (i 64) (.element 18446744073709551615) = 1180591620717411303360 := by
  decide +kernel

/-- Table X, `A5 3C F0`: a byte boundary, the end of the buffer, the guard, a window of 9 bytes. -/
theorem test_field_read :
    extract bufX 4 8 = 0x53 ∧ fieldRead bufX 0 (i 8) = -91 ∧ fieldRead bufX 12 (i 12) = -784 ∧
    fieldRead bufX 16 (i 12) = -256 ∧ fieldRead bufX 25 (u 8) = 0 ∧
    fieldRead bufX 7 (i 64) = -7027867218511659008 ∧ extractBarrel bufX 7 64 = 0x9E78000000000000 := by
  decide +kernel

/-- Table W: W3, W5, W9, W14 and W15. -/
theorem test_field_write :
    bytesAfter (fieldWrite bufX 7 2 1) = some [0xA4, 0xBC, 0xF0] ∧
    bytesAfter (fieldWrite bufX 20 8 0xAB) = some [0xA5, 0x3C, 0xFA, 0xB0] ∧
    bytesAfter (fieldWrite bufX 25 8 0xFF) = some [0xA5, 0x3C, 0xF0] ∧
    bytesAfter (fieldWrite (withBuffer [0xFF]) 5 5 0x15) = some [0xFD, 0x40] ∧
    bytesAfter (fieldWrite (withBuffer [0xFF, 0xFF]) 6 5 (-16)) = some [0xFE, 0x1F] := by
  decide +kernel

/-- 40 R74, whether it wrote: in place and at `off = 8*LEN` yes, past it no, in an empty buffer at 0 yes and at 1 no; with
CAPACITY there is no output. -/
theorem test_field_write_wrote :
    wroteOf (fieldWrite bufX 7 2 1) = some true ∧ wroteOf (fieldWrite bufX 24 8 1) = some true ∧
    wroteOf (fieldWrite bufX 25 8 0xFF) = some false ∧ wroteOf (fieldWrite (withBuffer []) 0 1 1) = some true ∧
    wroteOf (fieldWrite (withBuffer []) 1 1 1) = some false ∧ wroteOf (fieldWrite bufFull 24 16 0x0701) = none := by
  decide +kernel

/-- Table W by the merge form: W4, W7, W8. -/
theorem test_field_write_merge :
    bytesAfter (fieldWriteMerge bufX 3 13 (-1)) = some [0xBF, 0xFF, 0xF0] ∧
    bytesAfter (fieldWriteMerge bufX 24 64 (-2)) =
      some [0xA5, 0x3C, 0xF0, 0xFF, 0xFF, 0xFF, 0xFF, 0xFF, 0xFF, 0xFF, 0xFE] ∧
    bytesAfter (fieldWriteMerge bufX 23 64 0x8000000000000001) =
      some [0xA5, 0x3C, 0xF1, 0, 0, 0, 0, 0, 0, 0, 2] := by
  decide +kernel

/-- W16: CAPACITY. -/
theorem test_field_write_capacity : bytesAfter (fieldWrite bufFull 24 16 0x0701) = none := by decide +kernel

/-- Table AR, unsigned. -/
theorem test_compute_unsigned :
    compute (u 8) .wrap 200 100 = (44, .overflow) ∧ compute (u 8) .saturate 200 100 = (255, .overflow) ∧
    compute (u 8) .fail 0 (port (-1)) = (255, .underflow) ∧ compute (u 8) .saturate 0 (port (-1)) = (0, .underflow) ∧
    compute (u 8) .wrap 200 (port (-200)) = (0, .none) ∧
    compute (u 63) .wrap 9223372036854775807 (port (-9223372036854775808)) = (9223372036854775807, .underflow) := by
  decide +kernel

/-- Table AR, signed. -/
theorem test_compute_signed :
    compute (i 8) .wrap 127 1 = (-128, .overflow) ∧ compute (i 5) .fail (port (-16)) (port (-100)) = (12, .underflow) ∧
    compute (i 8) .wrap (port (-1)) (port (-9223372036854775808)) = (-1, .underflow) ∧
    compute (i 64) .wrap 9223372036854775807 1 = (-9223372036854775808, .overflow) ∧
    compute (i 64) .saturate 9223372036854775807 5 = (9223372036854775807, .overflow) ∧
    compute (i 64) .wrap 9223372036854775807 (port (-9223372036854775808)) = (-1, .none) := by
  decide +kernel

/-- Table AR, `cur` outside the field's range: both conditions hold and overflow wins. -/
theorem test_compute_out_of_range :
    compute (u 8) .wrap 300 (port (-400)) = (156, .overflow) ∧
    compute (i 8) .saturate (port (-200)) 1000 = (127, .overflow) ∧
    compute (i 8) .wrap (port (-200)) 0 = (56, .underflow) := by
  decide +kernel

/-! ### Instructions: table I and the source's examples -/

/-- I1: GET at the end of the buffer, sign-extended. -/
theorem test_get_signed :
    shows (exec (.get (i 12) (.absolute 12)) bufX) =
      some ([0x0FFFFFFFFFFFFFCF0], [0xA5, 0x3C, 0xF0], .wrap) := by
  decide +kernel

/-- S7: GET beyond the end. -/
theorem test_get_beyond_end :
    shows (exec (.get (u 8) (.absolute 1000)) (withBuffer [0x38, 0x38, 0x33])) =
      some ([0], [0x38, 0x38, 0x33], .wrap) := by
  decide +kernel

/-- I3: SET reports the old value and masks the new one. -/
theorem test_set_masks :
    shows (exec (.set (i 8) (.absolute 0) 200) bufX) =
      some ([0x0FFFFFFFFFFFFFFA5], [0xC8, 0x3C, 0xF0], .wrap) := by
  decide +kernel

/-- I4: SET at the end appends. -/
theorem test_set_appends :
    shows (exec (.set (u 8) (.element 3) 7) bufX) = some ([0], [0xA5, 0x3C, 0xF0, 7], .wrap) := by
  decide +kernel

/-- I14: INCRBY straddling the end grows the buffer. -/
theorem test_incrby_straddles :
    shows (exec (.incrby (u 16) (.absolute 0) 1) (withBuffer [0xFF])) =
      some ([0x0000000000000FF01], [0xFF, 0x01], .wrap) := by
  decide +kernel

/-- S4: INCRBY refused under fail. -/
theorem test_incrby_refused :
    shows (exec (.incrby (u 8) (.absolute 0) 1) ((withBuffer [0xFF]).setPolicy .fail)) =
      some ([0x50000000000000000], [0xFF], .wrap) := by
  decide +kernel

/-- I15: OVERFLOW appends no record. -/
theorem test_overflow :
    shows (exec (.overflow .saturate) (withBuffer [0xFF])) = some ([], [0xFF], .saturate) := by
  decide +kernel

/-- P6, command 2: CAPACITY is precise and keeps the policy. -/
theorem test_incrby_capacity :
    nextOf (step { running [0, 0, 0x3010000000000000000000180000000000000001] bufFull with
        policy := .saturate, pc := 2 }) =
      some { running [0, 0, 0x3010000000000000000000180000000000000001] bufFull with
        policy := .saturate, pc := 2, run := .fault, fcause := .capacity, fidx := 2 } := by
  decide +kernel

/-! ### The sequencer and the host -/

/-- The first word of P1 runs as the first instruction after reset. -/
theorem test_withFetchWord_runs :
    (nextOf (step (State.reset.withFetchWord 160 0x2208000000000000000000000000000000000027))).map
      (fun t => (t.bufferBytes, t.pc, t.run)) = some ([0x27], 1, .running) := by
  decide +kernel

/-- 10 R22: the reset values. -/
theorem test_reset_values :
    State.reset.len = 0 ∧ State.reset.ncmd = 0 ∧ State.reset.rcnt = 0 ∧ State.reset.pc = 0 ∧
      State.reset.policy = .wrap ∧ State.reset.run = .idle ∧ State.reset.fcause = .none ∧ State.reset.fidx = 0 ∧
      State.reset.mem.wf = true := by
  decide

/-- P7: HostStart rejects the batch at its least illegal index. -/
theorem test_start_rejects :
    hostReply .readStatus (hostStart (hostLoadBatch [0x2208000000000000000000000000000000000027,
        0x1040000000000000000000000000000000000000, 0x1000000000000000000000000000000000000000] State.reset)) =
      .status .fault .illegalCmd 1 0 3 .wrap := by
  decide +kernel

/-- A buffer loaded by the host reads back; one that exceeds `CAP` is refused. -/
theorem test_load_buffer :
    hostReply .readBuffer (hostLoadBuffer [0x38, 0, 0x33] State.reset) = .buffer 3 [0x38, 0, 0x33] ∧
    hostLoadBuffer [1, 2, 3, 4, 5] bufFull = bufFull := by
  decide +kernel

/-- The outputs of 70 R159 for a finished run with one record. -/
theorem test_pin_outputs :
    (pinOutputs 1 0 { bufX with run := .done, res := [⟨true, .underflow, 0⟩], policy := .fail }).resRdata =
      0x70000000000000000 ∧
    (pinOutputs 1 1 bufX).bufRdata = 0x3C ∧ (pinOutputs 3 0 bufX).bufRdata = 0 ∧
    (pinOutputs 0 0 { bufX with run := .done }).runState = 2 := by
  decide +kernel

/-- 30 R63, R65, R66: tokens the assembler refuses. -/
theorem test_assembler_errors :
    (assemble "GET u08 0".toList).isOk = false ∧ (assemble "SET u8 -1 5".toList).isOk = false ∧
    (assemble "SET u8 0".toList).isOk = false ∧ (assemble "SET u8 0 9223372036854775808".toList).isOk = false ∧
    (assemble "OVERFLOW saturate".toList).isOk = false ∧ (assemble "GET u8 #".toList).isOk = false := by
  decide +kernel

/-! ### Witnesses: the hypotheses of each statement can be met -/

/-- A running batch of one GET that satisfies the invariant. -/
def witnessRun : State := running [0x1018000000000000000000000000000000000000] bufX

theorem witness_batch_legal : ∀ c ∈ witnessRun.cmd, legal c = true := by
  intro c hc
  rw [List.mem_singleton.mp hc]
  decide +kernel

theorem witness_stateInv_running : StateInv witnessRun where
  canonical := by decide
  inside := by decide
  lenFits := rfl
  batchFits := rfl
  pcFits := rfl
  resFits := rfl
  runningPc := fun _ => by decide
  runningLegal := fun _ => witness_batch_legal
  runningRecords := fun _ => rfl
  records := by simp [witnessRun, running, bufX, withBuffer, State.reset, State.resetWith]
  noFault := fun _ => ⟨rfl, rfl⟩
  someFault := nofun
  capacityAtPc := nofun
  illegalAtStart := nofun
  idleAtStart := nofun

/-- A state of the invariant in which the host may act: of HostKeepsTheInvariant. -/
theorem witness_stateInv_idle : StateInv bufX where
  canonical := by decide
  inside := by decide
  lenFits := rfl
  batchFits := rfl
  pcFits := rfl
  resFits := rfl
  runningPc := nofun
  runningLegal := nofun
  runningRecords := nofun
  records := by simp [bufX, withBuffer, State.reset, State.resetWith]
  noFault := fun _ => ⟨rfl, rfl⟩
  someFault := nofun
  capacityAtPc := nofun
  illegalAtStart := nofun
  idleAtStart := fun _ => ⟨rfl, rfl⟩

theorem witness_DecodeEncodeInverse :
    (Instr.set (i 64) (.element 3) 5).wellFormed = true ∧
    decode 0x1340000000000000000000030000000000000000 = .ok (.get (i 64) (.element 3)) := by
  decide +kernel

theorem witness_DecodeReadsEachField :
    (legal 0x103F000000000000000000000000000000000000 = true ∧
      fieldOp 0x103F000000000000000000000000000000000000 = 1#4) ∧
    (legal 0x2140000000000000000000008000000000000000 = true ∧
      fieldOp 0x2140000000000000000000008000000000000000 = 2#4) ∧
    (legal 0x323F000000000000000000007FFFFFFFFFFFFFFF = true ∧
      fieldOp 0x323F000000000000000000007FFFFFFFFFFFFFFF = 3#4) ∧
    (legal 0x4000020000000000000000000000000000000000 = true ∧
      fieldOp 0x4000020000000000000000000000000000000000 = 4#4) ∧
    legal 0x1040000000000000000000000000000000000000 = false := by
  decide +kernel

/-- Both ends of the range of widths; in the buffer, at its end, past it, and an empty buffer. -/
theorem witness_ExtractIsTheSumOfItsBits :
    (1 ≤ 1 ∧ 1 ≤ 64) ∧ (1 ≤ 64 ∧ 64 ≤ 64) ∧ bufX.bitLen ≤ 24 ∧ 25 > bufX.bitLen ∧ (withBuffer []).len = 0 := by
  decide

/-- Both ends of the range of widths, on a field that spans 9 bytes and one past the end: its value is table X's. -/
theorem witness_BarrelExtractorRefinesExtract :
    (1 ≤ 64 ∧ 64 ≤ 64 ∧ extract bufX 7 64 = 0x9E78000000000000) ∧ (1 ≤ 1 ∧ 1 ≤ 64 ∧ extract bufX 25 1 = 0) := by
  decide +kernel

/-- The widest field, byte-aligned, and the narrowest at the top of it. -/
theorem witness_FieldOrderIsBigEndian : (1 ≤ 64 ∧ 64 ≤ 64) ∧ 8 % 8 = 0 ∧ (1 ≤ 8 ∧ 8 ≤ 8) ∧ (1 ≤ 1 ∧ 1 ≤ 64) := by decide

theorem witness_SignExtendAtTheFieldsOwnWidth :
    ((i 64).legal = true ∧ 2 ^ 64 - 1 < 2 ^ (i 64).width ∧ (2 ^ 64 - 1).testBit ((i 64).width - 1) = true) ∧
    ((i 1).legal = true ∧ (0 : Nat).testBit ((i 1).width - 1) = false) ∧
    ((u 63).legal = true ∧ 2 ^ 63 - 1 < 2 ^ (u 63).width ∧ (u 63).sign = .unsigned) := by
  decide +kernel

theorem witness_ReadPastTheEndGivesZeros :
    (i 12).legal = true ∧ bufX.bitLen < 25 ∧ (16 < bufX.bitLen ∧ bufX.bitLen < 16 + (i 12).width) ∧ bufX.bitLen ≤ 24 := by
  decide

theorem witness_WriteGuardIsStrict :
    (1 ≤ 64 ∧ 64 ≤ 64) ∧ 25 > bufX.bitLen ∧ 24 = bufX.bitLen ∧ bufX.cfg.cap.fits (bufX.len + ceilDiv 64 8) = true ∧
    (bytesAfter (fieldWrite bufX 23 64 1)).isSome = true := by
  decide +kernel

/-- In place, at the last position, and at `off = 8*LEN`; and an instruction of each kind that grows the buffer. -/
theorem witness_GrowthIsExact :
    23 ≤ bufX.bitLen ∧ 24 ≤ bufX.bitLen ∧ (bytesAfter (fieldWrite bufX 23 1 1)).isSome = true ∧ (bytesAfter (fieldWrite bufX 24 64 1)).isSome = true ∧
    (nextOf (exec (.set (u 8) (.element 3) 7) bufX)).any (fun t => t.len != bufX.len) = true ∧
    (nextOf (exec (.incrby (u 8) (.element 3) 7) bufX)).any (fun t => t.len != bufX.len) = true := by
  decide +kernel

/-- A field write that passes the guard: of WriteThenReadRoundTrips and, with 13 in 1 to 64, of WriteSetsExactlyTheField. -/
theorem witness_WriteThenReadRoundTrips :
    (i 13).legal = true ∧ 3 ≤ bufX.bitLen ∧ (bytesAfter (fieldWrite bufX 3 (i 13).width (-4096))).isSome = true ∧
    fieldMin (i 13) ≤ -4096 ∧ -4096 ≤ fieldMax (i 13) := by
  decide +kernel

theorem witness_MergeInserterRefinesFieldWrite : (1 ≤ 64 ∧ 64 ≤ 64) ∧ bufX.mem.wf = true := by decide

theorem witness_MemReadAfterMemWrite : 0 + 3 ≤ bufX.len ∧ ¬(0 ≤ 3 ∧ 3 < 0 + 3) := by decide

theorem witness_AdderIsExactWithoutOverflow :
    (i 8).legal = true ∧ (compute (i 8) .saturate 100 27).2 = .none := by
  decide +kernel

theorem witness_AdderWrapsUnsignedAndSaturates :
    (u 8).legal = true ∧ (i 8).legal = true ∧ (compute (u 8) .fail 255 1).2 ≠ .none ∧
    (compute (u 8) .saturate 255 1).2 = .overflow ∧
    (compute (i 8) .saturate (port (-128)) (port (-1))).2 = .underflow := by
  decide +kernel

theorem witness_SignedWrapAroundAtTheFieldsOwnWidth :
    ((i 8).legal = true ∧ (compute (i 8) .wrap 127 1).2 ≠ .none) ∧
    ((i 64).legal = true ∧ (i 64).width = 64 ∧ (compute (i 64) .fail 9223372036854775807 1).2 ≠ .none) := by
  decide +kernel

/-- Also of DetectorReducedForm, FieldReadStaysInRange, FieldRangeIsTheRepresentableRange and
EffectiveAddressIsFormedInFull. -/
theorem witness_ComputeLaws :
    (u 63).legal = true ∧ fieldMin (u 63) ≤ readPort (u 63).sign 9223372036854775807 ∧
    readPort (u 63).sign 9223372036854775807 ≤ fieldMax (u 63) := by
  decide +kernel

theorem witness_GetReturnsTheField :
    (u 24).legal = true ∧ bufX.bitLen ≤ effectiveAddress (u 24) (.element 1) := by
  decide +kernel

/-- In place, at the end, guarded, and not fitting. -/
theorem witness_SetWritesTheFieldAndReportsTheOldValue :
    (u 8).legal = true ∧ WriteFits bufX (effectiveAddress (u 8) (.element 2)) 8 ∧
    (effectiveAddress (u 8) (.element 3) = bufX.bitLen ∧ WriteFits bufX (effectiveAddress (u 8) (.element 3)) 8) ∧
    (effectiveAddress (u 8) (.element 4) > bufX.bitLen ∧ WriteFits bufX (effectiveAddress (u 8) (.element 4)) 8) ∧
    ¬WriteFits bufFull (effectiveAddress (u 8) (.element 4)) 8 := by
  decide +kernel

/-- Refused; written; guarded; not fitting. -/
theorem witness_IncrbyRefusesOrWritesTheNewValue :
    IncrbyRefused (u 8) (.absolute 0) 255 (bufX.setPolicy .fail) ∧
    (¬IncrbyRefused (u 8) (.absolute 0) 1 (bufX.setPolicy .fail) ∧ WriteFits bufX 0 8) ∧
    (¬IncrbyRefused (u 8) (.element 4) 1 bufX ∧ effectiveAddress (u 8) (.element 4) > bufX.bitLen) ∧
    (¬IncrbyRefused (u 8) (.element 4) 1 bufFull ∧ ¬WriteFits bufFull (effectiveAddress (u 8) (.element 4)) 8) := by
  decide +kernel

/-- Both ways an INCRBY ends, and an INCRBY after OVERFLOW with a GET and a SET between them. -/
theorem witness_IncrbyConsumesThePolicy :
    (nextOf (exec (.incrby (u 8) (.absolute 0) 1) bufX)).any (fun t => t.pc == bufX.pc + 1) = true ∧
    (nextOf (exec (.incrby (u 8) (.element 4) 1) bufFull)).any (fun t => decide (t.run = .fault)) = true ∧
    ((nextOf (exec (.overflow .saturate) bufX)).bind
        (execAll [.get (u 8) (.absolute 0), .set (u 8) (.absolute 0) 255])).any
      (fun t => (nextOf (exec (.incrby (u 8) (.absolute 0) 1) t)).any (fun r => r.pc == t.pc + 1)) = true := by
  decide +kernel

theorem witness_IncrbyAtAGuardedPosition :
    (u 8).legal = true ∧ effectiveAddress (u 8) (.absolute 100) > (withBuffer [0xFF]).bitLen := by
  decide +kernel

theorem witness_CapacityFaultExactlyWhenGrowthDoesNotFit :
    bufFull.run ≠ .fault ∧
    (nextOf (exec (.set (u 8) (.element 4) 1) bufFull)).any (fun t => decide (t.run = .fault)) = true := by
  decide +kernel

/-- Also of GetAndSetDoNotSeeThePolicy, with the SET of the next witness. -/
theorem witness_FrameOfGetAndOverflow :
    (nextOf (exec (.get (u 8) (.absolute 3)) bufX)).isSome = true ∧
    (nextOf (exec (.overflow .fail) bufX)).isSome = true := by
  decide +kernel

/-- Byte 2 lies outside the field of 13 bits at 3; byte 0 outside one at 8. -/
theorem witness_FrameOfSetAndIncrby :
    (nextOf (exec (.set (u 13) (.absolute 3) 1) bufX)).isSome = true ∧ OutsideField 3 13 2 ∧
    (nextOf (exec (.incrby (i 64) (.absolute 8) 1) bufX)).isSome = true ∧ OutsideField 8 64 0 ∧
    (nextOf (exec (.incrby (u 8) (.element 4) 1) bufX)).isSome = true ∧ 32 > bufX.bitLen := by
  decide +kernel

theorem witness_WellFormedInstructionsAlwaysRun :
    (Instr.incrby (i 1) (.absolute 0) 0).wellFormed = true ∧ (Instr.get (u 64) (.absolute 0)).wellFormed = false := by
  decide

theorem witness_StepRunsTheDecodedCommand :
    witnessRun.run = .running ∧ witnessRun.pc < witnessRun.ncmd ∧
    witnessRun.cmd[witnessRun.pc]? = some 0x1018000000000000000000000000000000000000 ∧
    decode 0x1018000000000000000000000000000000000000 = .ok (.get (u 24) (.absolute 0)) := by
  decide +kernel

theorem witness_StepAtTheEndOfTheBatchIsDone :
    (running [] bufX).run = .running ∧ (running [] bufX).pc = (running [] bufX).ncmd := by
  decide

theorem witness_StepOnAnIllegalWordFaults :
    (running [0] bufX).run = .running ∧ (running [0] bufX).pc < (running [0] bufX).ncmd ∧
    (running [0] bufX).cmd[(running [0] bufX).pc]? = some 0#160 ∧ legal 0#160 = false := by
  decide +kernel

/-- A step that completes, one that ends the run, and one that faults: also of FaultsArePrecise and, with
`witness_stateInv_running`, of StepKeepsTheInvariant. -/
theorem witness_StepKeepsTheBatchAndAdvancesByOne :
    (nextOf (step witnessRun)).any (fun t => decide (t.run = .running)) = true ∧
    (nextOf (step (running [] bufX))).any (fun t => decide (t.run = .done)) = true ∧
    (nextOf (step (running [0x2208000000000000000000040000000000000007] bufFull))).any
      (fun t => decide (t.run = .fault)) = true := by
  decide +kernel

theorem witness_ReachableStatesSatisfyTheInvariant : Reachable State.reset := .reset Config.unbounded

theorem witness_EveryRunEnds : StateInv witnessRun ∧ witnessRun.run = .running :=
  ⟨witness_stateInv_running, rfl⟩

/-- A legal batch and one whose least illegal index is 1. -/
theorem witness_StartValidatesTheWholeBatch :
    (bufX.run ≠ .running ∧ legal 0x4000000000000000000000000000000000000000 = true ∧ legal 0#160 = false) ∧
    (∀ c ∈ witnessRun.cmd, legal c = true) :=
  ⟨by decide +kernel, witness_batch_legal⟩

theorem witness_HostIsIgnoredWhileRunning : witnessRun.run = .running := rfl

/-- Also of PinPushesAreTheHostLoads; `QCAP` bounds nothing in `bufX`. -/
theorem witness_LoadsReplaceTheWholeStore :
    bufFull.run ≠ .running ∧ bufFull.cfg.cap.fits 4 = true ∧ bufFull.cfg.cap.fits 5 = false ∧
    bufFull.cfg.qcap.fits 5 = true ∧ ({ cap := .infinite, qcap := .finite 1 le_rfl } : Config).qcap.fits 2 = false := by
  decide +kernel

theorem witness_BytesBeyondTheBufferCannotBeSeen : SameVisible bufX { bufX with mem := bufX.mem ++ [(7, 1)] } := by
  refine ⟨rfl, fun a => ?_⟩
  by_cases h : a < 3
  · have : ∀ a, a < 3 → State.byteAt { bufX with mem := bufX.mem ++ [(7, 1)] } a = bufX.byteAt a := by decide
    exact this a h
  · exact (if_neg h).trans (if_neg h).symm

theorem witness_AssembledWordsAreLegal :
    assemble "OVERFLOW wrap".toList = .ok [0x4000000000000000000000000000000000000000] := by
  decide +kernel

end Sys2Proof.Tests
end

/-! PROOFS. The family 20_memory.md: the order of a field's bits, reads past the end, growth, and the frame of a field
write and of the two instructions that write. -/

namespace Sys2Proof.Machine

/-! ### The extractor: fields split into fields -/

/-- A field is its first `v` bits followed by the `k` bits after them, most significant first (20 R31). -/
theorem shiftIn_add (s : State) (off v k : Nat) :
    shiftIn s off (v + k) = shiftIn s off v * 2 ^ k + shiftIn s (off + v) k := by
  induction k with
  | zero => simp [shiftIn]
  | succ k ih =>
    rw [← Nat.add_assoc, shiftIn, ih, shiftIn, ← Nat.add_assoc off v k, pow_succ]
    ring

/-- The first bits of a field are the top of its value. -/
theorem shiftIn_div_two_pow (s : State) (off v k : Nat) : shiftIn s off (v + k) / 2 ^ k = shiftIn s off v := by
  rw [shiftIn_add, Nat.mul_comm, Nat.mul_add_div (by positivity), Nat.div_eq_of_lt (shiftIn_lt s _ k), Nat.add_zero]

/-- An aligned field of 8 bits is its byte, past the end too. -/
theorem shiftIn_byte (s : State) (a : Nat) : shiftIn s (8 * a) 8 = (s.byteAt a).toNat := by
  apply Nat.eq_of_testBit_eq
  intro j
  by_cases hj : j < 8
  · have hbit := testBit_shiftIn s (8 * a) (show 7 - j < 8 by omega)
    rw [show 8 - 1 - (7 - j) = j by omega, bufBit_eq_byteAt, show (8 * a + (7 - j)) / 8 = a by omega,
      show 7 - (8 * a + (7 - j)) % 8 = j by omega] at hbit
    rw [hbit, BitVec.testBit_toNat]
  · have hpow : 2 ^ 8 ≤ 2 ^ j := Nat.pow_le_pow_right (by omega) (by omega)
    rw [Nat.testBit_lt_two_pow (lt_of_lt_of_le (shiftIn_lt s _ 8) hpow),
      Nat.testBit_lt_two_pow (lt_of_lt_of_le (s.byteAt a).isLt hpow)]

/-- An aligned field of whole bytes is the big-endian integer of its bytes. -/
theorem shiftIn_bytes (s : State) (a n : Nat) : shiftIn s (8 * a) (8 * n) = s.memRead a n := by
  induction n with
  | zero => rfl
  | succ n ih =>
    rw [Nat.mul_succ, shiftIn_add, ih, ← Nat.mul_add, shiftIn_byte, State.memRead, Nat.mul_comm (s.memRead a n)]
    rfl

/-- A field that crosses the end keeps the bits before it and has zeros below them (20 R37). -/
theorem shiftIn_straddle {s : State} {off w : Nat} (hoff : off ≤ s.bitLen) (hend : s.bitLen ≤ off + w) :
    shiftIn s off w = shiftIn s off (s.bitLen - off) * 2 ^ (off + w - s.bitLen) := by
  have hsplit := shiftIn_add s off (s.bitLen - off) (off + w - s.bitLen)
  rwa [show s.bitLen - off + (off + w - s.bitLen) = w by omega,
    shiftIn_past_end (show s.bitLen ≤ off + (s.bitLen - off) by omega), Nat.add_zero] at hsplit

@[simp] theorem signExt_zero (ty : FieldType) : signExt ty 0 = 0 := by
  unfold signExt
  split <;> simp

/-- A field that starts at the end or past it reads as 0, signed or not. -/
theorem fieldRead_past_end {s : State} {off : Nat} (ty : FieldType) (h : s.bitLen ≤ off) :
    fieldRead s off ty = 0 := by
  rw [fieldRead, extract_eq_shiftIn, shiftIn_past_end h, signExt_zero]

/-! ### The inserter: what a field write gives -/

/-- A write that ends inside the buffer does not grow it. -/
theorem growthOf_of_le {s : State} {off w : Nat} (h : off + w ≤ s.bitLen) : growthOf s off w = 0 := by
  unfold growthOf ceilDiv
  omega

/-- The grown buffer is just long enough for the field (20 R39). -/
theorem len_add_growthOf {s : State} {off w : Nat} (h : off + w > s.bitLen) :
    s.len + growthOf s off w = ceilDiv (off + w) 8 := by
  unfold growthOf ceilDiv State.bitLen
  unfold State.bitLen at h
  omega

/-- After the growth of a write its field lies inside the buffer. -/
theorem le_bitLen_grow_growthOf (s : State) (off w : Nat) :
    off + w ≤ (s.grow (growthOf s off w)).bitLen := by
  rw [bitLen_grow]
  by_cases h : off + w ≤ s.bitLen
  · omega
  · exact (growthOf_spec (not_le.mp h)).1

/-- A field write that answers is the guarded no-op, or the loop run on the grown buffer; a write in place grows by 0. -/
theorem fieldWrite_ok_cases {s : State} {r : WriteOutput} {off w : Nat} {val : Int}
    (h : fieldWrite s off w val = .ok r) :
    (s.bitLen < off ∧ r.state = s) ∨
    (off ≤ s.bitLen ∧ r.state = writeBits off w (lowBits w val) (s.grow (growthOf s off w)) w) := by
  unfold fieldWrite at h
  rcases writeGuarded_cases s off w (fun t => writeBits off w (lowBits w val) t w) with
    ⟨hg, h'⟩ | ⟨hg, hin, h'⟩ | ⟨hg, _, _, h'⟩ | ⟨_, _, _, h'⟩ <;> rw [h'] at h <;> cases h
  · exact .inl ⟨hg, rfl⟩
  · exact .inr ⟨hg, by rw [growthOf_of_le hin]; rfl⟩
  · exact .inr ⟨hg, rfl⟩

section write
variable {s : State} {r : WriteOutput} {off w : Nat} {val : Int} (h : fieldWrite s off w val = .ok r)
include h

theorem fieldWrite_of_guarded (hg : s.bitLen < off) : r.state = s := by
  rcases fieldWrite_ok_cases h with ⟨_, hr⟩ | ⟨hoff, _⟩
  · exact hr
  · omega

/-- A write that passes the guard grows the buffer by the rule's amount (20 R39). -/
theorem fieldWrite_len (hoff : off ≤ s.bitLen) : r.state.len = s.len + growthOf s off w := by
  rcases fieldWrite_ok_cases h with ⟨hg, _⟩ | ⟨_, hr⟩
  · omega
  · rw [hr, writeBits_len, grow_len]

/-- A write that passes the guard sets its field's bits, most significant first, and no other bit. -/
theorem bufBit_fieldWrite (hoff : off ≤ s.bitLen) (q : Nat) :
    r.state.bufBit q =
      if off ≤ q ∧ q < off + w then (lowBits w val).testBit (w - 1 - (q - off)) else s.bufBit q := by
  rcases fieldWrite_ok_cases h with ⟨hg, _⟩ | ⟨_, hr⟩
  · omega
  · rw [hr, bufBit_writeBits (le_bitLen_grow_growthOf s off w) le_rfl, bufBit_grow]

/-- Guarded or not, a write keeps every bit outside its field. -/
theorem bufBit_fieldWrite_outside {p : Nat} (hp : ¬(off ≤ p ∧ p < off + w)) : r.state.bufBit p = s.bufBit p := by
  by_cases hoff : off ≤ s.bitLen
  · rw [bufBit_fieldWrite h hoff, if_neg hp]
  · rw [fieldWrite_of_guarded h (not_le.mp hoff)]

theorem len_le_fieldWrite : s.len ≤ r.state.len := by
  by_cases hoff : off ≤ s.bitLen
  · rw [fieldWrite_len h hoff]
    exact Nat.le_add_right _ _
  · rw [fieldWrite_of_guarded h (not_le.mp hoff)]

end write

/-! ### What the instructions on fields answer -/

/-- A GET that answers appended its record and advanced. -/
theorem exec_get_next {ty : FieldType} {off : Offset} {s t : State} (h : exec (.get ty off) s = .next t) :
    t = (s.append (plainRecord (fieldRead s (effectiveAddress ty off) ty))).advance := by
  have hrun := (withLegalType_next h).2
  cases hrun
  rfl

/-- A command that ends in a field write wrote and completed, or raised CAPACITY. -/
theorem complete_fieldWrite_next {s t : State} {off w : Nat} {val : Int} {f : WriteOutput → State}
    (h : complete s ((fieldWrite s off w val).map f) = .next t) :
    (∃ r, fieldWrite s off w val = .ok r ∧ t = (f r).advance) ∨
    (fieldWrite s off w val = .error .capacity ∧ t = s.raise .capacity s.pc) := by
  cases hw : fieldWrite s off w val with
  | ok r =>
    rw [hw] at h
    cases h
    exact .inl ⟨r, rfl, rfl⟩
  | error c =>
    obtain rfl := fieldWrite_error hw
    rw [hw] at h
    cases h
    exact .inr ⟨rfl, rfl⟩

/-- A SET that answers wrote its value and appended the old one, or raised CAPACITY. -/
theorem exec_set_next {ty : FieldType} {off : Offset} {v : Value} {s t : State}
    (h : exec (.set ty off v) s = .next t) :
    (∃ r, fieldWrite s (effectiveAddress ty off) ty.width v.toInt = .ok r ∧
      t = (r.state.append (plainRecord (fieldRead s (effectiveAddress ty off) ty))).advance) ∨
    (fieldWrite s (effectiveAddress ty off) ty.width v.toInt = .error .capacity ∧ t = s.raise .capacity s.pc) :=
  complete_fieldWrite_next (withLegalType_next h).2

/-- An INCRBY that answers was refused and wrote nothing, or wrote and appended its new value, or raised CAPACITY. -/
theorem exec_incrby_next {ty : FieldType} {off : Offset} {v : Value} {s t : State}
    (h : exec (.incrby ty off v) s = .next t) :
    let result := incrbyCompute ty (effectiveAddress ty off) v s
    (IncrbyRefused ty off v s ∧
      t = ((s.append { refused := true, ovf := result.2, value := 0#64 }).setPolicy .wrap).advance) ∨
    (¬IncrbyRefused ty off v s ∧ ∃ r, fieldWrite s (effectiveAddress ty off) ty.width result.1 = .ok r ∧
      t = ((r.state.append { refused := false, ovf := result.2, value := BitVec.ofInt 64 result.1 }).setPolicy
        .wrap).advance) ∨
    (¬IncrbyRefused ty off v s ∧ fieldWrite s (effectiveAddress ty off) ty.width result.1 = .error .capacity ∧
      t = s.raise .capacity s.pc) := by
  intro result
  have hrun := (withLegalType_next h).2
  split at hrun
  · next href =>
    cases hrun
    exact .inl ⟨href, rfl⟩
  · next href =>
    rcases complete_fieldWrite_next hrun with hok | hfault
    · exact .inr (.inl ⟨href, hok⟩)
    · exact .inr (.inr ⟨href, hfault⟩)

/-- An instruction that changes `LEN` is a SET or an INCRBY that is not refused. -/
theorem exec_grows {i : Instr} {s t : State} (h : exec i s = .next t) (hlen : t.len ≠ s.len) :
    (∃ ty off value, i = .set ty off value) ∨
    (∃ ty off increment, i = .incrby ty off increment ∧ ¬IncrbyRefused ty off increment s) := by
  cases i with
  | get ty off =>
    rw [exec_get_next h] at hlen
    exact absurd rfl hlen
  | set ty off value => exact .inl ⟨ty, off, value, rfl⟩
  | incrby ty off increment =>
    refine .inr ⟨ty, off, increment, rfl, fun href => ?_⟩
    rcases exec_incrby_next h with ⟨_, rfl⟩ | ⟨hnot, _⟩ | ⟨hnot, _⟩
    · exact hlen rfl
    · exact hnot href
    · exact hnot href
  | overflow p =>
    cases h
    exact absurd rfl hlen

/-! ### The frame of an instruction that writes a field -/

/-- What `t` has in common with `s` when at most the field at `off` of `w` bits was written between them (20 R34). -/
structure KeepsOutside (s t : State) (off w : Nat) : Prop where
  bits : ∀ p, ¬(off ≤ p ∧ p < off + w) → t.bufBit p = s.bufBit p
  guarded : off > s.bitLen → ∀ a, t.byteAt a = s.byteAt a
  grows : s.len ≤ t.len

namespace KeepsOutside

theorem refl (s : State) (off w : Nat) : KeepsOutside s s off w := ⟨fun _ _ => rfl, fun _ _ => rfl, le_rfl⟩

theorem of_fieldWrite {s : State} {r : WriteOutput} {off w : Nat} {val : Int}
    (h : fieldWrite s off w val = .ok r) : KeepsOutside s r.state off w where
  bits _ hp := bufBit_fieldWrite_outside h hp
  guarded hg a := by rw [fieldWrite_of_guarded h hg]
  grows := len_le_fieldWrite h

/-- Bytes the field does not touch hold no bit of it. -/
theorem bytes {s t : State} {off w : Nat} (h : KeepsOutside s t off w) {a : Nat} (ha : OutsideField off w a) :
    t.byteAt a = s.byteAt a :=
  byteAt_eq_of_bufBit_eq fun p hp => h.bits p (by unfold OutsideField at ha; omega)

/-- The frame speaks of the buffer only: any state with the same cells and `LEN` has it too. -/
theorem of_same_buffer {s t u : State} {off w : Nat} (h : KeepsOutside s t off w) (hmem : u.mem = t.mem)
    (hlen : u.len = t.len) : KeepsOutside s u off w := by
  obtain ⟨hbits, hguarded, hgrows⟩ := h
  have hbyte : ∀ a, u.byteAt a = t.byteAt a := fun a => by simp only [State.byteAt, hmem, hlen]
  have hbit : ∀ p, u.bufBit p = t.bufBit p := fun p => by rw [bufBit_eq_byteAt, bufBit_eq_byteAt, hbyte]
  exact ⟨fun p hp => (hbit p).trans (hbits p hp), fun hg a => (hbyte a).trans (hguarded hg a), hlen ▸ hgrows⟩

end KeepsOutside

theorem exec_set_keepsOutside {ty : FieldType} {off : Offset} {v : Value} {s t : State}
    (h : exec (.set ty off v) s = .next t) : KeepsOutside s t (effectiveAddress ty off) ty.width := by
  rcases exec_set_next h with ⟨r, hw, rfl⟩ | ⟨_, rfl⟩
  · exact (KeepsOutside.of_fieldWrite hw).of_same_buffer rfl rfl
  · exact (KeepsOutside.refl s _ _).of_same_buffer rfl rfl

theorem exec_incrby_keepsOutside {ty : FieldType} {off : Offset} {v : Value} {s t : State}
    (h : exec (.incrby ty off v) s = .next t) : KeepsOutside s t (effectiveAddress ty off) ty.width := by
  rcases exec_incrby_next h with ⟨_, rfl⟩ | ⟨_, r, hw, rfl⟩ | ⟨_, _, rfl⟩
  · exact (KeepsOutside.refl s _ _).of_same_buffer rfl rfl
  · exact (KeepsOutside.of_fieldWrite hw).of_same_buffer rfl rfl
  · exact (KeepsOutside.refl s _ _).of_same_buffer rfl rfl

theorem exec_set_policy {ty : FieldType} {off : Offset} {v : Value} {s t : State}
    (h : exec (.set ty off v) s = .next t) : t.policy = s.policy := by
  rcases exec_set_next h with ⟨r, hw, rfl⟩ | ⟨_, rfl⟩
  · rw [advance_policy, append_policy, fieldWrite_ok hw]
  · rfl

/-- No instruction writes the batch or the parameters. -/
theorem exec_keeps_batch {i : Instr} {s t : State} (h : exec i s = .next t) : t.cfg = s.cfg ∧ t.cmd = s.cmd := by
  rcases exec_next h with ⟨u, rfl, hu, _⟩ | rfl
  · rw [hu]
    exact ⟨rfl, rfl⟩
  · exact ⟨rfl, rfl⟩

/-- An instruction other than OVERFLOW appends one record and keeps the run state, or raises CAPACITY at `PC` and keeps
the buffer and the results. -/
theorem exec_ends {i : Instr} {s t : State} (h : exec i s = .next t) (hi : ∀ p, i ≠ .overflow p) :
    (t.run = s.run ∧ t.fcause = s.fcause ∧ t.fidx = s.fidx ∧ ∃ r, t.res = s.res ++ [r]) ∨
    (t.run = .fault ∧ t.fcause = .capacity ∧ t.fidx = s.pc ∧ t.res = s.res ∧ t.mem = s.mem ∧ t.len = s.len) := by
  rcases exec_next h with ⟨u, rfl, hu, ⟨_, r, _, hr⟩ | ⟨⟨p, hp⟩, _⟩, _⟩ | rfl
  · refine .inl ⟨?_, ?_, ?_, r, hr⟩ <;> rw [hu] <;> rfl
  · exact absurd hp (hi p)
  · exact .inr ⟨rfl, rfl, rfl, rfl, rfl, rfl⟩

/-! ### The obligations -/

/-- Settles O8: a field splits into a shorter field and the rest, and an aligned 8-bit field is its byte. -/
theorem fieldOrderIsBigEndian : Obligations.FieldOrderIsBigEndian := by
  intro s off w _ _
  simp only [extract_eq_shiftIn]
  refine ⟨fun i hi => testBit_shiftIn s off hi, fun n _ _ halign => ?_, fun v _ hvw => ?_⟩
  · have hbytes := shiftIn_bytes s (off / 8) n
    rwa [show 8 * (off / 8) = off by omega] at hbytes
  · have htop := shiftIn_div_two_pow s off v (w - v)
    rw [Nat.add_sub_cancel' hvw] at htop
    exact htop.symm

/-- Settles O10: the bits past the end are 0, so the part of a field that lies there is. -/
theorem readPastTheEndGivesZeros : Obligations.ReadPastTheEndGivesZeros := by
  intro s off ty hlegal
  refine ⟨fun p hp => bufBit_of_le hp, fieldRead_past_end ty, fun hpast => ?_, fun hin hout => ?_, fun o => ?_⟩
  · rw [extract_eq_shiftIn]
    exact ⟨shiftIn_past_end hpast.le _, shiftIn_past_end hpast.le _⟩
  · simp only [extract_eq_shiftIn]
    exact shiftIn_straddle hin.le hout.le
  · exact ⟨_, withLegalType_of_legal _ hlegal, rfl, rfl, rfl⟩

/-- Settles O14: the loop of the inserter, run on the grown buffer. -/
theorem writeSetsExactlyTheField : Obligations.WriteSetsExactlyTheField :=
  fun _ _ _ _ _ _ _ _ hoff h q => bufBit_fieldWrite h hoff q

/-- Settles O13: the growth is `growthOf`, and a new bit outside the field reads as it did past the old end. -/
theorem growthIsExact : Obligations.GrowthIsExact := by
  refine ⟨fun s t wrote off w val _ _ hoff h => ?_, fun i s t => exec_grows⟩
  have hlen : t.len = s.len + growthOf s off w := fieldWrite_len h hoff
  refine ⟨fun hin => ?_, fun hout => ⟨hlen, hlen.trans (len_add_growthOf hout)⟩, fun p hp hfield => ?_⟩
  · rw [hlen, growthOf_of_le hin, Nat.add_zero]
  · rw [← bufBit_of_le hp]
    exact bufBit_fieldWrite_outside h hfield

/-- Settles O33: the buffer by the frame of the field write, the registers by what every instruction can have done. -/
theorem frameOfSetAndIncrby : Obligations.FrameOfSetAndIncrby := by
  intro i ty off v s t hi h
  have hkeeps : KeepsOutside s t (effectiveAddress ty off) ty.width := by
    rcases hi with rfl | rfl
    · exact exec_set_keepsOutside h
    · exact exec_incrby_keepsOutside h
  have hnot : ∀ p, i ≠ .overflow p := by rcases hi with rfl | rfl <;> exact nofun
  obtain ⟨hcfg, hcmd⟩ := exec_keeps_batch h
  refine ⟨fun a => hkeeps.bytes, hkeeps.bits, hkeeps.guarded, hkeeps.grows, hcfg, hcmd, exec_ends h hnot, ?_⟩
  rintro rfl
  exact exec_set_policy h

end Sys2Proof.Machine

/-! PROOFS. The family 40_bit_codec.md: the extractor and its barrel-shifter form, the sign-extend unit, and what a
field read feeds to the overflow detector. -/

namespace Sys2Proof.Machine

/-! ### The extractor: its sum and its slices -/

/-- The loop of 40 R70 adds up the field's bits, the first with the weight `2^(w-1)`. -/
theorem shiftIn_eq_sum (s : State) (off w : Nat) :
    shiftIn s off w = ∑ i ∈ Finset.range w, (s.bufBit (off + i)).toNat * 2 ^ (w - 1 - i) := by
  induction w with
  | zero => rfl
  | succ w ih =>
    rw [shiftIn, ih, Finset.sum_range_succ, Finset.mul_sum, Nat.add_sub_cancel, Nat.sub_self, pow_zero, Nat.mul_one]
    congr 1
    refine Finset.sum_congr rfl fun i hi => ?_
    have hlt : i < w := Finset.mem_range.mp hi
    rw [show w - i = (w - 1 - i) + 1 by omega, pow_succ]
    ring

/-- A field inside a wider one: shift off the `k` bits after it, cut off the `a` bits before it. -/
theorem shiftIn_slice (s : State) (off a w k : Nat) :
    shiftIn s off (a + w + k) / 2 ^ k % 2 ^ w = shiftIn s (off + a) w := by
  rw [shiftIn_div_two_pow, shiftIn_add, Nat.mul_add_mod_self_right, Nat.mod_eq_of_lt (shiftIn_lt s _ w)]

/-- A field of at most 65 bits lies in the window of 9 bytes from its first byte on, one shift and one truncation away
(40 R71). -/
theorem window_shift_eq_shiftIn (s : State) (off : Nat) {w : Nat} (hw : w ≤ 65) :
    (s.memRead (off / 8) 9 >>> (72 - off % 8 - w)) % 2 ^ w = shiftIn s off w := by
  have hslice := shiftIn_slice s (8 * (off / 8)) (off % 8) w (72 - off % 8 - w)
  rwa [show off % 8 + w + (72 - off % 8 - w) = 8 * 9 by omega, shiftIn_bytes, Nat.div_add_mod,
    ← Nat.shiftRight_eq_div_pow] at hslice

theorem extractBarrel_eq_shiftIn (s : State) (off : Nat) {w : Nat} (hw : w ≤ 65) :
    extractBarrel s off w = shiftIn s off w := by
  unfold extractBarrel
  split
  · next h => exact (shiftIn_past_end h.le w).symm
  · exact window_shift_eq_shiftIn s off hw

/-! ### The sign-extend unit -/

/-- What the sign-extend unit puts above the field on the 64-bit port: the top bit of a signed field, 0 of an unsigned
one (40 R72). -/
def extensionBit (ty : FieldType) (raw : Nat) : Bool := ty.sign == .signed && raw.testBit (ty.width - 1)

theorem extensionBit_of_unsigned {ty : FieldType} (hs : ty.sign = .unsigned) (raw : Nat) :
    extensionBit ty raw = false := by
  rw [extensionBit, hs]
  rfl

theorem extensionBit_of_signed {ty : FieldType} (hs : ty.sign = .signed) (raw : Nat) :
    extensionBit ty raw = raw.testBit (ty.width - 1) := by
  rw [extensionBit, hs]
  rfl

/-- The unit subtracts `2^w` when the bit it extends with is set. -/
theorem signExt_eq (ty : FieldType) (raw : Nat) :
    signExt ty raw = if extensionBit ty raw then (raw : Int) - 2 ^ ty.width else raw := by
  unfold signExt
  cases hs : ty.sign
  · rw [extensionBit_of_unsigned hs]
    rfl
  · rw [extensionBit_of_signed hs]

theorem signExt_of_clear {ty : FieldType} {raw : Nat} (h : extensionBit ty raw = false) : signExt ty raw = raw := by
  rw [signExt_eq, h]
  rfl

theorem signExt_of_set {ty : FieldType} {raw : Nat} (h : extensionBit ty raw = true) :
    signExt ty raw = (raw : Int) - 2 ^ ty.width := by
  rw [signExt_eq, if_pos h]

section raw
variable {ty : FieldType} {raw : Nat} (hraw : raw < 2 ^ ty.width)
include hraw

/-- The unit is `sext` at the field's own width (00 R8). -/
theorem signExt_eq_sext (hs : ty.sign = .signed) : signExt ty raw = sext ty.width raw := by
  have hmod : (raw : Int) % 2 ^ ty.width = raw := Int.emod_eq_of_lt (by omega) (by exact_mod_cast hraw)
  rw [signExt_eq, extensionBit_of_signed hs, Nat.testBit_eq_decide_div_mod_eq]
  simp only [sext, hmod, decide_eq_true_eq]
  norm_cast

/-- What the unit gives lies in the field's range. -/
theorem signExt_range (hw : 1 ≤ ty.width) : fieldMin ty ≤ signExt ty raw ∧ signExt ty raw ≤ fieldMax ty := by
  cases hs : ty.sign
  · have hlt : (raw : Int) < 2 ^ ty.width := by exact_mod_cast hraw
    rw [signExt_of_clear (extensionBit_of_unsigned hs raw)]
    simp only [fieldMin, fieldMax, hs]
    omega
  · have hrange := sext_range hw raw
    rw [signExt_eq_sext hraw hs]
    simp only [fieldMin, fieldMax, hs]
    omega

/-- With its extension bit set the unit gives the complement of `2^w - 1 - raw`. -/
theorem signExt_eq_negSucc (h : extensionBit ty raw = true) :
    signExt ty raw = Int.negSucc (2 ^ ty.width - (raw + 1)) := by
  rw [signExt_of_set h, Int.negSucc_eq]
  push_cast [Nat.succ_le_of_lt hraw]
  ring

/-- The source's complement form of the negative branch. -/
theorem signExt_eq_complement (h : extensionBit ty raw = true) :
    signExt ty raw = -(((~~~(BitVec.ofNat ty.width raw)).toNat : Int) + 1) := by
  rw [signExt_eq_negSucc hraw h, Int.negSucc_eq, BitVec.toNat_not, BitVec.toNat_ofNat, Nat.mod_eq_of_lt hraw,
    Nat.sub_sub, Nat.add_comm 1]

/-- On the 64-bit port the bits from `w` up are the extension bit, those below it are `raw`'s. -/
theorem getLsbD_ofInt_signExt {i : Nat} (hi : i < 64) :
    (BitVec.ofInt 64 (signExt ty raw)).getLsbD i = if i < ty.width then raw.testBit i else extensionBit ty raw := by
  cases h : extensionBit ty raw
  · rw [signExt_of_clear h, BitVec.ofInt_natCast, BitVec.getLsbD_ofNat, decide_eq_true hi, Bool.true_and]
    split
    · rfl
    · next hge =>
      exact Nat.testBit_lt_two_pow (hraw.trans_le (Nat.pow_le_pow_right (by omega) (not_lt.mp hge)))
  · rw [signExt_eq_negSucc hraw h, BitVec.ofInt_negSucc_eq_not_ofNat, BitVec.getLsbD_not, BitVec.getLsbD_ofNat,
      Nat.testBit_two_pow_sub_succ hraw, decide_eq_true hi]
    by_cases hlt : i < ty.width <;> simp [hlt]

end raw

/-! ### The field read and the overflow detector -/

theorem extract_lt (s : State) (off w : Nat) : extract s off w < 2 ^ w := by
  rw [extract_eq_shiftIn]
  exact shiftIn_lt s off w

/-- A field read lies in the field's range (40 R73). -/
theorem fieldRead_range (s : State) (off : Nat) {ty : FieldType} (h : ty.legal = true) :
    fieldMin ty ≤ fieldRead s off ty ∧ fieldRead s off ty ≤ fieldMax ty :=
  signExt_range (extract_lt s off ty.width) (width_bounds_of_legal h).1

/-- From inside the range only a positive increment overflows. -/
theorem pos_of_overflows {ty : FieldType} {cur incr : Int} (hmax : cur ≤ fieldMax ty)
    (h : overflows ty cur incr = true) : 0 < incr := by
  unfold overflows at h
  split at h <;> rw [decide_eq_true_eq] at h <;> omega

/-- From inside the range only a negative increment underflows. -/
theorem neg_of_underflows {ty : FieldType} {cur incr : Int} (hmin : fieldMin ty ≤ cur)
    (h : underflows ty cur incr = true) : incr < 0 := by
  unfold underflows at h
  split at h <;> rw [decide_eq_true_eq] at h <;> omega

/-! ### The obligations -/

/-- Settles O6: the loop adds up the weighted bits, and the read guard changes nothing past the end. -/
theorem extractIsTheSumOfItsBits : Obligations.ExtractIsTheSumOfItsBits := by
  intro s off w _ _
  have hsum := (extract_eq_shiftIn s off w).trans (shiftIn_eq_sum s off w)
  have hpast (h : s.bitLen ≤ off) : extract s off w = 0 := by rw [extract_eq_shiftIn, shiftIn_past_end h]
  refine ⟨?_, hsum, extract_lt s off w, hpast, fun hempty => hpast (by simp [State.bitLen, hempty])⟩
  split
  · next h => exact hpast h.le
  · exact hsum

/-- Settles O7: the field is a slice of the 9-byte window. -/
theorem barrelExtractorRefinesExtract : Obligations.BarrelExtractorRefinesExtract := by
  intro s off w _ hw
  rw [extract_eq_shiftIn, extractBarrel_eq_shiftIn s off (by omega)]

/-- Settles O9, by whether the extension bit is set. -/
theorem signExtendAtTheFieldsOwnWidth : Obligations.SignExtendAtTheFieldsOwnWidth := by
  intro ty raw hlegal hraw
  refine ⟨fun hs => signExt_of_clear (extensionBit_of_unsigned hs raw), fun hs htop => ?_, fun hs htop => ?_,
    signExt_eq_sext hraw, signExt_range hraw (width_bounds_of_legal hlegal).1, fun i => getLsbD_ofInt_signExt hraw⟩
  · exact signExt_of_clear ((extensionBit_of_signed hs raw).trans htop)
  · have hset : extensionBit ty raw = true := (extensionBit_of_signed hs raw).trans htop
    exact ⟨signExt_eq_complement hraw hset, signExt_of_set hset⟩

/-- Settles O11: an increment that overflows is positive there, one that underflows negative. -/
theorem fieldReadStaysInRange : Obligations.FieldReadStaysInRange := by
  intro s off ty incr hlegal
  have hrange := fieldRead_range s off hlegal
  refine ⟨hrange, readPort_ofInt hlegal hrange, fun ⟨hover, hunder⟩ => ?_⟩
  exact lt_asymm (pos_of_overflows hrange.2 hover) (neg_of_underflows hrange.1 hunder)

end Sys2Proof.Machine

/-! PROOFS. The family 41_overflow_arith.md: the field range, the reduced form of the detector, and what the adder gives
under each policy. -/

namespace Sys2Proof.Machine

/-! ### The field range -/

theorem fieldRange_iff_of_unsigned {ty : FieldType} (hs : ty.sign = .unsigned) (v : Int) :
    (fieldMin ty ≤ v ∧ v ≤ fieldMax ty) ↔ (0 ≤ v ∧ v < 2 ^ ty.width) := by
  simp only [fieldMin, fieldMax, hs, Int.le_sub_one_iff]

theorem fieldRange_iff_of_signed {ty : FieldType} (hs : ty.sign = .signed) (v : Int) :
    (fieldMin ty ≤ v ∧ v ≤ fieldMax ty) ↔ (-2 ^ (ty.width - 1) ≤ v ∧ v < 2 ^ (ty.width - 1)) := by
  simp only [fieldMin, fieldMax, hs, Int.le_sub_one_iff]

/-- The field range holds at most one number of each residue modulo `2^w`. -/
theorem eq_of_fieldRange {ty : FieldType} (hw : 1 ≤ ty.width) {a b : Int}
    (ha : fieldMin ty ≤ a ∧ a ≤ fieldMax ty) (hb : fieldMin ty ≤ b ∧ b ≤ fieldMax ty)
    (h : a % 2 ^ ty.width = b % 2 ^ ty.width) : a = b := by
  cases hs : ty.sign
  · rw [fieldRange_iff_of_unsigned hs] at ha hb
    rwa [Int.emod_eq_of_lt ha.1 ha.2, Int.emod_eq_of_lt hb.1 hb.2] at h
  · rw [fieldRange_iff_of_signed hs] at ha hb
    exact eq_of_signed_range hw ha hb h

/-- A signed field of the full width has the range of the 64-bit ports. -/
theorem toInt_fieldRange {ty : FieldType} (hs : ty.sign = .signed) (hw : ty.width = 64) (v : Value) :
    fieldMin ty ≤ v.toInt ∧ v.toInt ≤ fieldMax ty := by
  rw [fieldRange_iff_of_signed hs, hw]
  exact ⟨BitVec.le_toInt v, BitVec.toInt_lt⟩

/-! ### A value cut to the field's width and extended -/

theorem lowBits_cast (w : Nat) (v : Int) : (lowBits w v : Int) = v % 2 ^ w :=
  Int.toNat_of_nonneg (Int.emod_nonneg v (by positivity))

theorem lowBits_lt (w : Nat) (v : Int) : lowBits w v < 2 ^ w := by
  have hlt : (lowBits w v : Int) < 2 ^ w := lowBits_cast w v ▸ Int.emod_lt_of_pos v (by positivity)
  exact_mod_cast hlt

/-- Sign extension keeps the residue modulo `2^w`. -/
theorem signExt_emod (ty : FieldType) (raw : Nat) : signExt ty raw % 2 ^ ty.width = raw % 2 ^ ty.width := by
  rw [signExt_eq]
  split
  · exact Int.sub_emod_right _ _
  · rfl

theorem signExt_lowBits_emod (ty : FieldType) (v : Int) :
    signExt ty (lowBits ty.width v) % 2 ^ ty.width = v % 2 ^ ty.width := by
  rw [signExt_emod, lowBits_cast, Int.emod_emod]

/-- A number of the field's range survives the field's width. -/
theorem signExt_lowBits {ty : FieldType} (hw : 1 ≤ ty.width) {v : Int}
    (hv : fieldMin ty ≤ v ∧ v ≤ fieldMax ty) : signExt ty (lowBits ty.width v) = v :=
  eq_of_fieldRange hw (signExt_range (lowBits_lt _ v) hw) hv (signExt_lowBits_emod ty v)

/-! ### The reduced form of the detector (41 R95) -/

/-- Overflow of the source's clauses, where the third one stands in for the second at the full width. -/
theorem overflows_iff {ty : FieldType} {c n : Int}
    (hfull : ty.sign = .signed → ¬ty.width < 64 → c ≤ fieldMax ty ∧ n ≤ fieldMax ty) :
    overflows ty c n = true ↔ c > fieldMax ty ∨ c + n > fieldMax ty := by
  unfold overflows
  cases hs : ty.sign
  · simp only [decide_eq_true_eq]
    omega
  · have := hfull hs
    simp only [decide_eq_true_eq]
    omega

/-- Underflow, the mirror image; an unsigned `cur` is not negative. -/
theorem underflows_iff {ty : FieldType} {c n : Int} (hnonneg : ty.sign = .unsigned → 0 ≤ c)
    (hfull : ty.sign = .signed → ¬ty.width < 64 → fieldMin ty ≤ c ∧ fieldMin ty ≤ n) :
    underflows ty c n = true ↔ c < fieldMin ty ∨ c + n < fieldMin ty := by
  unfold underflows
  cases hs : ty.sign
  · have := hnonneg hs
    simp only [decide_eq_true_eq, fieldMin, hs]
    omega
  · have := hfull hs
    simp only [decide_eq_true_eq]
    omega

theorem readPort_nonneg {sign : Signedness} (hs : sign = .unsigned) (v : Value) : 0 ≤ readPort sign v := by
  subst hs
  exact Int.natCast_nonneg _

section ports
variable {ty : FieldType} (hlegal : ty.legal = true) (cur incr : Value)
include hlegal

/-- A legal signed field that is not narrower than 64 bits holds what its two ports carry. -/
theorem ports_fieldRange_of_full_width (hs : ty.sign = .signed) (hfull : ¬ty.width < 64) :
    (fieldMin ty ≤ readPort ty.sign cur ∧ readPort ty.sign cur ≤ fieldMax ty) ∧
    (fieldMin ty ≤ incr.toInt ∧ incr.toInt ≤ fieldMax ty) := by
  have hw : ty.width = 64 := by
    have := (width_bounds_of_legal hlegal).2.1
    omega
  have hcur : readPort ty.sign cur = cur.toInt := by
    rw [hs]
    rfl
  exact ⟨hcur ▸ toInt_fieldRange hs hw cur, toInt_fieldRange hs hw incr⟩

theorem overflows_ports : overflows ty (readPort ty.sign cur) incr.toInt = true ↔
    readPort ty.sign cur > fieldMax ty ∨ readPort ty.sign cur + incr.toInt > fieldMax ty := by
  refine overflows_iff fun hs hfull => ?_
  obtain ⟨⟨_, hcur⟩, ⟨_, hincr⟩⟩ := ports_fieldRange_of_full_width hlegal cur incr hs hfull
  exact ⟨hcur, hincr⟩

theorem underflows_ports : underflows ty (readPort ty.sign cur) incr.toInt = true ↔
    readPort ty.sign cur < fieldMin ty ∨ readPort ty.sign cur + incr.toInt < fieldMin ty := by
  refine underflows_iff (fun hs => readPort_nonneg hs cur) fun hs hfull => ?_
  obtain ⟨⟨hcur, _⟩, ⟨hincr, _⟩⟩ := ports_fieldRange_of_full_width hlegal cur incr hs hfull
  exact ⟨hcur, hincr⟩

theorem detect_ports : detect ty (readPort ty.sign cur) incr.toInt =
    if readPort ty.sign cur > fieldMax ty ∨ readPort ty.sign cur + incr.toInt > fieldMax ty then .overflow
    else if readPort ty.sign cur < fieldMin ty ∨ readPort ty.sign cur + incr.toInt < fieldMin ty then .underflow
    else .none := by
  simp only [detect, overflows_ports hlegal, underflows_ports hlegal]

/-- The indicator 0 puts the exact sum in the field's range. -/
theorem sum_fieldRange_of_detect_none (h : detect ty (readPort ty.sign cur) incr.toInt = .none) :
    fieldMin ty ≤ readPort ty.sign cur + incr.toInt ∧ readPort ty.sign cur + incr.toInt ≤ fieldMax ty := by
  rw [detect_ports hlegal] at h
  split_ifs at h
  omega

section inRange
variable (hmin : fieldMin ty ≤ readPort ty.sign cur) (hmax : readPort ty.sign cur ≤ fieldMax ty)
include hmin hmax

/-- With `cur` in range the indicator speaks of the sum alone. -/
theorem detect_of_cur_fieldRange : detect ty (readPort ty.sign cur) incr.toInt =
    if readPort ty.sign cur + incr.toInt > fieldMax ty then .overflow
    else if readPort ty.sign cur + incr.toInt < fieldMin ty then .underflow else .none := by
  rw [detect_ports hlegal]
  simp only [not_lt.mpr hmax, not_lt.mpr hmin, gt_iff_lt, false_or]

theorem detect_eq_overflow_iff : detect ty (readPort ty.sign cur) incr.toInt = .overflow ↔
    readPort ty.sign cur + incr.toInt > fieldMax ty := by
  rw [detect_of_cur_fieldRange hlegal cur incr hmin hmax]
  split_ifs with hover hunder <;> simp [hover]

/-- A sum below the range is not above it, so overflow's priority takes nothing away. -/
theorem detect_eq_underflow_iff : detect ty (readPort ty.sign cur) incr.toInt = .underflow ↔
    readPort ty.sign cur + incr.toInt < fieldMin ty := by
  rw [detect_of_cur_fieldRange hlegal cur incr hmin hmax]
  split_ifs with hover hunder
  · exact iff_of_false nofun (by omega)
  · simp [hunder]
  · simp [hunder]

end inRange

end ports

/-! ### The wrapped sum (41 R97, R98) -/

theorem wrapSum_of_unsigned {ty : FieldType} (hs : ty.sign = .unsigned) (sum : Int) :
    wrapSum ty sum = sum % 2 ^ ty.width := by
  rw [wrapSum, hs]

theorem wrapSum_of_signed {ty : FieldType} (hs : ty.sign = .signed) (sum : Int) :
    wrapSum ty sum = sext ty.width (sum % 2 ^ 64 % 2 ^ ty.width) := by
  rw [wrapSum, hs]

section wrapped
variable {ty : FieldType} (hlegal : ty.legal = true) (sum : Int)
include hlegal

theorem wrapSum_range : fieldMin ty ≤ wrapSum ty sum ∧ wrapSum ty sum ≤ fieldMax ty := by
  cases hs : ty.sign
  · rw [wrapSum_of_unsigned hs, fieldRange_iff_of_unsigned hs]
    exact ⟨Int.emod_nonneg sum (by positivity), Int.emod_lt_of_pos sum (by positivity)⟩
  · rw [wrapSum_of_signed hs, fieldRange_iff_of_signed hs]
    exact sext_range (width_bounds_of_legal hlegal).1 _

/-- The first cut, to 64 bits, is to a multiple of the field's width, so it keeps the residue. -/
theorem wrapSum_emod : wrapSum ty sum % 2 ^ ty.width = sum % 2 ^ ty.width := by
  cases hs : ty.sign
  · rw [wrapSum_of_unsigned hs, Int.emod_emod]
  · have hdvd : (2 : Int) ^ ty.width ∣ 2 ^ 64 := pow_dvd_pow 2 (width_bounds_of_legal hlegal).2.1
    rw [wrapSum_of_signed hs, sext_emod, Int.emod_emod, Int.emod_emod_of_dvd sum hdvd]

/-- The wrapped sum is the one number of the field's range congruent to the sum. -/
theorem eq_wrapSum {v : Int} (hv : fieldMin ty ≤ v ∧ v ≤ fieldMax ty)
    (h : v % 2 ^ ty.width = sum % 2 ^ ty.width) : v = wrapSum ty sum :=
  eq_of_fieldRange (width_bounds_of_legal hlegal).1 hv (wrapSum_range hlegal sum)
    (h.trans (wrapSum_emod hlegal sum).symm)

end wrapped

/-- At the full width the wrapped sum is the sum read as 64-bit two's complement. -/
theorem wrapSum_full_width {ty : FieldType} (hlegal : ty.legal = true) (hs : ty.sign = .signed)
    (hw : ty.width = 64) (sum : Int) : wrapSum ty sum = (BitVec.ofInt 64 sum).toInt := by
  refine (eq_wrapSum hlegal sum (toInt_fieldRange hs hw _) ?_).symm
  rw [hw, BitVec.toInt_ofInt]
  exact Int.bmod_emod

/-! ### What Compute gives under each policy -/

/-- The indicator is the detector's, whatever the policy. -/
@[simp] theorem compute_snd (ty : FieldType) (pol : Policy) (cur incr : Value) :
    (compute ty pol cur incr).2 = detect ty (readPort ty.sign cur) incr.toInt := rfl

theorem compute_fst_of_none {ty : FieldType} {pol : Policy} {cur incr : Value}
    (h : (compute ty pol cur incr).2 = .none) :
    (compute ty pol cur incr).1 = readPort ty.sign cur + incr.toInt := by
  rw [compute_snd] at h
  simp only [compute, h, addUnder]

theorem compute_fst_of_saturate (ty : FieldType) (cur incr : Value) :
    (compute ty .saturate cur incr).1 =
      clampTo ty (compute ty .saturate cur incr).2 (readPort ty.sign cur + incr.toInt) := by
  rw [compute_snd, compute]
  cases detect ty (readPort ty.sign cur) incr.toInt <;> rfl

/-- Under wrap and fail the new value is the wrapped sum whatever the indicator: an exact sum in range is its own
wrapped sum (41 R102 (b)). -/
theorem compute_fst_of_ne_saturate {ty : FieldType} (hlegal : ty.legal = true) {pol : Policy} (hpol : pol ≠ .saturate)
    (cur incr : Value) : (compute ty pol cur incr).1 = wrapSum ty (readPort ty.sign cur + incr.toInt) := by
  by_cases hind : (compute ty pol cur incr).2 = .none
  · rw [compute_fst_of_none hind]
    exact eq_wrapSum hlegal _ (sum_fieldRange_of_detect_none hlegal cur incr hind) rfl
  · rw [compute_snd] at hind
    cases pol with
    | saturate => exact absurd rfl hpol
    | wrap | fail =>
      rw [compute]
      cases h : detect ty (readPort ty.sign cur) incr.toInt with
      | none => exact absurd h hind
      | overflow | underflow => rfl

/-- The clamped value lies in the field's range, for `cur` outside it too. -/
theorem compute_saturate_range {ty : FieldType} (hlegal : ty.legal = true) (cur incr : Value) :
    fieldMin ty ≤ (compute ty .saturate cur incr).1 ∧ (compute ty .saturate cur incr).1 ≤ fieldMax ty := by
  have hbounds := fieldRange_bounds hlegal
  rw [compute_fst_of_saturate]
  cases h : (compute ty .saturate cur incr).2 with
  | none => exact sum_fieldRange_of_detect_none hlegal cur incr h
  | overflow | underflow =>
    simp only [clampTo]
    omega

theorem compute_emod_of_ne_saturate {ty : FieldType} (hlegal : ty.legal = true) {pol : Policy}
    (hpol : pol ≠ .saturate) (cur incr : Value) :
    (compute ty pol cur incr).1 % 2 ^ ty.width = (readPort ty.sign cur + incr.toInt) % 2 ^ ty.width := by
  rw [compute_fst_of_ne_saturate hlegal hpol, wrapSum_emod hlegal]

theorem compute_range {ty : FieldType} (hlegal : ty.legal = true) (pol : Policy) (cur incr : Value) :
    fieldMin ty ≤ (compute ty pol cur incr).1 ∧ (compute ty pol cur incr).1 ≤ fieldMax ty := by
  by_cases hpol : pol = .saturate
  · exact hpol ▸ compute_saturate_range hlegal cur incr
  · exact compute_fst_of_ne_saturate hlegal hpol cur incr ▸ wrapSum_range hlegal _

section inRange
variable {ty : FieldType} (hlegal : ty.legal = true) (cur : Value) (hmin : fieldMin ty ≤ readPort ty.sign cur)
  (hmax : readPort ty.sign cur ≤ fieldMax ty)
include hlegal hmin hmax

/-- With `cur` in range saturate clamps the exact sum (41 R102 (c)). -/
theorem compute_saturate_eq_clamp (incr : Value) : (compute ty .saturate cur incr).1 =
    min (fieldMax ty) (max (fieldMin ty) (readPort ty.sign cur + incr.toInt)) := by
  rw [compute_fst_of_saturate, compute_snd, detect_of_cur_fieldRange hlegal cur incr hmin hmax]
  split_ifs <;> simp only [clampTo] <;> omega

/-- The zero increment keeps a value in range (41 R102 (e)). -/
theorem compute_zero (pol : Policy) : compute ty pol cur 0#64 = (readPort ty.sign cur, .none) := by
  have hnone : (compute ty pol cur 0#64).2 = .none := by
    rw [compute_snd, detect_of_cur_fieldRange hlegal cur _ hmin hmax, BitVec.toInt_zero, add_zero,
      if_neg (not_lt.mpr hmax), if_neg (not_lt.mpr hmin)]
  exact Prod.ext (by rw [compute_fst_of_none hnone, BitVec.toInt_zero, add_zero]) hnone

end inRange

/-! ### The obligations -/

/-- Settles O18: a number in range survives, and what the sign-extend unit gives is in range. -/
theorem fieldRangeIsTheRepresentableRange : Obligations.FieldRangeIsTheRepresentableRange := by
  intro ty v hlegal
  have hw := (width_bounds_of_legal hlegal).1
  exact ⟨signExt_lowBits hw, fun h => h ▸ signExt_range (lowBits_lt _ v) hw⟩

/-- Settles O19. -/
theorem detectorReducedForm : Obligations.DetectorReducedForm := fun _ cur incr hlegal =>
  ⟨overflows_ports hlegal cur incr, underflows_ports hlegal cur incr, detect_ports hlegal cur incr⟩

/-- Settles O20. -/
theorem adderIsExactWithoutOverflow : Obligations.AdderIsExactWithoutOverflow := fun _ pol cur incr hlegal hind =>
  ⟨compute_fst_of_none hind, compute_range hlegal pol cur incr⟩

/-- Settles O21: the wrapped sum of an unsigned field, and the clamp by the indicator. -/
theorem adderWrapsUnsignedAndSaturates : Obligations.AdderWrapsUnsignedAndSaturates := by
  intro ty pol cur incr hlegal _
  refine ⟨fun hs hpol => ?_, ?_, ?_⟩
  · rw [compute_fst_of_ne_saturate hlegal hpol, wrapSum_of_unsigned hs]
  all_goals
    rintro rfl hind
    rw [compute_fst_of_saturate, hind, clampTo]

/-- Settles O22: the new value is the wrapped sum. -/
theorem signedWrapAroundAtTheFieldsOwnWidth : Obligations.SignedWrapAroundAtTheFieldsOwnWidth := by
  intro ty pol cur incr hlegal hs hpol _
  simp only [compute_fst_of_ne_saturate hlegal hpol]
  exact ⟨wrapSum_of_signed hs _, wrapSum_range hlegal _, wrapSum_emod hlegal _,
    fun v hmin hmax => eq_wrapSum hlegal _ ⟨hmin, hmax⟩, fun hw => wrapSum_full_width hlegal hs hw _⟩

/-- Settles O23, law by law. -/
theorem computeLaws : Obligations.ComputeLaws := by
  intro ty pol cur incr hlegal
  refine ⟨compute_range hlegal pol cur incr, fun hpol => compute_emod_of_ne_saturate hlegal hpol cur incr,
    fun hmin hmax => ⟨?_, detect_eq_overflow_iff hlegal cur incr hmin hmax,
      detect_eq_underflow_iff hlegal cur incr hmin hmax, ?_⟩, fun _ => rfl⟩
  · rintro rfl
    exact compute_saturate_eq_clamp hlegal cur hmin hmax incr
  · rintro rfl
    rw [compute_zero hlegal cur hmin hmax pol]
    exact ⟨rfl, rfl⟩

end Sys2Proof.Machine

/-! PROOFS. The family 42_operations.md: what GET, SET and INCRBY answer when their write fits and when it does not, who
reads and writes `POLICY`, and what a step of the sequencer keeps. -/

namespace Sys2Proof.Machine

/-! ### What a field read depends on, and what it gives after a write -/

/-- A field read sees the cells and `LEN` only. -/
theorem fieldRead_of_same_buffer {s t : State} (hmem : t.mem = s.mem) (hlen : t.len = s.len) (off : Nat)
    (ty : FieldType) : fieldRead t off ty = fieldRead s off ty := by
  have hkeeps : KeepsOutside s t 0 0 := (KeepsOutside.refl s 0 0).of_same_buffer hmem hlen
  have hbit : ∀ p, t.bufBit p = s.bufBit p := fun p => hkeeps.bits p (by omega)
  have hshift : ∀ w, shiftIn t off w = shiftIn s off w := fun w => by simp only [shiftIn_eq_sum, hbit]
  rw [fieldRead, fieldRead, extract_eq_shiftIn, extract_eq_shiftIn, hshift]

@[simp] theorem fieldRead_append (s : State) (r : ResultRecord) (off : Nat) (ty : FieldType) :
    fieldRead (s.append r) off ty = fieldRead s off ty := by
  apply fieldRead_of_same_buffer <;> rfl

@[simp] theorem fieldRead_setPolicy (s : State) (p : Policy) (off : Nat) (ty : FieldType) :
    fieldRead (s.setPolicy p) off ty = fieldRead s off ty := by
  apply fieldRead_of_same_buffer <;> rfl

@[simp] theorem fieldRead_advance (s : State) (off : Nat) (ty : FieldType) :
    fieldRead s.advance off ty = fieldRead s off ty := by
  apply fieldRead_of_same_buffer <;> rfl

/-- The extractor gives back the number whose bits the field holds. -/
theorem shiftIn_eq_of_bits {s : State} {off w v : Nat} (hv : v < 2 ^ w)
    (h : ∀ i < w, s.bufBit (off + i) = v.testBit (w - 1 - i)) : shiftIn s off w = v := by
  apply Nat.eq_of_testBit_eq
  intro j
  by_cases hj : j < w
  · have hbit := testBit_shiftIn s off (show w - 1 - j < w by omega)
    rwa [h _ (by omega), show w - 1 - (w - 1 - j) = j by omega] at hbit
  · have hpow : 2 ^ w ≤ 2 ^ j := Nat.pow_le_pow_right (by omega) (not_lt.mp hj)
    rw [Nat.testBit_lt_two_pow ((shiftIn_lt s off w).trans_le hpow), Nat.testBit_lt_two_pow (hv.trans_le hpow)]

/-- What a write that passes the guard stored reads back as the low bits of the value (40 R77). -/
theorem fieldRead_fieldWrite {s : State} {r : WriteOutput} {off : Nat} {ty : FieldType} {val : Int}
    (h : fieldWrite s off ty.width val = .ok r) (hoff : off ≤ s.bitLen) :
    fieldRead r.state off ty = signExt ty (lowBits ty.width val) := by
  rw [fieldRead, extract_eq_shiftIn, shiftIn_eq_of_bits (lowBits_lt ty.width val)]
  intro i hi
  rw [bufBit_fieldWrite h hoff, if_pos (by omega), Nat.add_sub_cancel_left]

/-! ### When a field write answers -/

theorem fieldWrite_of_past_end {s : State} {off : Nat} (hg : s.bitLen < off) (w : Nat) (val : Int) :
    fieldWrite s off w val = .ok ⟨s, false⟩ := if_pos hg

/-- A write that fits raises nothing. -/
theorem fieldWrite_of_writeFits {s : State} {off w : Nat} (hfits : WriteFits s off w) (val : Int) :
    ∃ r, fieldWrite s off w val = .ok r := by
  rcases writeGuarded_cases s off w (fun t => writeBits off w (lowBits w val) t w) with
    ⟨_, h⟩ | ⟨_, _, h⟩ | ⟨_, _, _, h⟩ | ⟨hoff, hout, hcap, _⟩
  · exact ⟨_, h⟩
  · exact ⟨_, h⟩
  · exact ⟨_, h⟩
  · rcases hfits with hg | hin | hcap'
    · omega
    · omega
    · rw [hcap] at hcap'
      cases hcap'

/-- A write that does not fit raises CAPACITY (20 R40). -/
theorem fieldWrite_of_not_writeFits {s : State} {off w : Nat} (hnot : ¬WriteFits s off w) (val : Int) :
    fieldWrite s off w val = .error .capacity := by
  rcases writeGuarded_cases s off w (fun t => writeBits off w (lowBits w val) t w) with
    ⟨hg, _⟩ | ⟨_, hin, _⟩ | ⟨_, _, hcap, _⟩ | ⟨_, _, _, h⟩
  · exact absurd (.inl hg) hnot
  · exact absurd (.inr (.inl hin)) hnot
  · exact absurd (.inr (.inr hcap)) hnot
  · exact h

/-! ### What SET and INCRBY answer at a legal type, by the outcome of the write -/

section answers
variable {ty : FieldType} (hlegal : ty.legal = true) {off : Offset} {v : Value} {s : State}
include hlegal

theorem exec_set_of_ok {r : WriteOutput}
    (hw : fieldWrite s (effectiveAddress ty off) ty.width v.toInt = .ok r) :
    exec (.set ty off v) s =
      .next (r.state.append (plainRecord (fieldRead s (effectiveAddress ty off) ty))).advance :=
  (withLegalType_of_legal _ hlegal).trans (by rw [hw]; rfl)

theorem exec_set_of_error (hw : fieldWrite s (effectiveAddress ty off) ty.width v.toInt = .error .capacity) :
    exec (.set ty off v) s = .next (s.raise .capacity s.pc) :=
  (withLegalType_of_legal _ hlegal).trans (by rw [hw]; rfl)

theorem exec_incrby_of_refused (href : IncrbyRefused ty off v s) :
    exec (.incrby ty off v) s = .next ((s.append
      { refused := true, ovf := (incrbyCompute ty (effectiveAddress ty off) v s).2, value := 0#64 }).setPolicy
        .wrap).advance :=
  (withLegalType_of_legal _ hlegal).trans (by rw [if_pos href]; rfl)

theorem exec_incrby_of_ok (hnot : ¬IncrbyRefused ty off v s) {r : WriteOutput}
    (hw : fieldWrite s (effectiveAddress ty off) ty.width (incrbyCompute ty (effectiveAddress ty off) v s).1 = .ok r) :
    exec (.incrby ty off v) s = .next ((r.state.append
      { refused := false, ovf := (incrbyCompute ty (effectiveAddress ty off) v s).2,
        value := BitVec.ofInt 64 (incrbyCompute ty (effectiveAddress ty off) v s).1 }).setPolicy .wrap).advance :=
  (withLegalType_of_legal _ hlegal).trans (by rw [if_neg hnot, hw]; rfl)

theorem exec_incrby_of_error (hnot : ¬IncrbyRefused ty off v s)
    (hw : fieldWrite s (effectiveAddress ty off) ty.width (incrbyCompute ty (effectiveAddress ty off) v s).1 =
      .error .capacity) :
    exec (.incrby ty off v) s = .next (s.raise .capacity s.pc) :=
  (withLegalType_of_legal _ hlegal).trans (by rw [if_neg hnot, hw]; rfl)

end answers

theorem incrbyRefused_iff {ty : FieldType} {off : Offset} {v : Value} {s : State} :
    IncrbyRefused ty off v s ↔
      s.policy = .fail ∧ (incrbyCompute ty (effectiveAddress ty off) v s).2 ≠ .none := decide_eq_true_iff

/-- INCRBY's new value lies in the field's range, so the field's width does not cut it. -/
theorem signExt_lowBits_incrbyCompute {ty : FieldType} (hlegal : ty.legal = true) (ea : Nat) (v : Value) (s : State) :
    signExt ty (lowBits ty.width (incrbyCompute ty ea v s).1) = (incrbyCompute ty ea v s).1 :=
  signExt_lowBits (width_bounds_of_legal hlegal).1 (compute_range hlegal _ _ _)

/-- Past the end INCRBY computes on 0. -/
theorem incrbyCompute_past_end {ty : FieldType} {ea : Nat} {v : Value} {s : State} (h : s.bitLen ≤ ea) :
    incrbyCompute ty ea v s = compute ty s.policy 0#64 v := by
  rw [incrbyCompute, fieldRead_past_end ty h]
  rfl

/-! ### Who writes `POLICY` -/

/-- GET and SET keep `POLICY` (10 R12). -/
theorem exec_getOrSet_policy {i : Instr} (hi : GetOrSet i) {s t : State} (h : exec i s = .next t) :
    t.policy = s.policy := by
  rcases hi with ⟨ty, off, rfl⟩ | ⟨ty, off, v, rfl⟩
  · rw [exec_get_next h]
    rfl
  · exact exec_set_policy h

theorem execAll_getOrSet_policy {is : List Instr} (his : ∀ i ∈ is, GetOrSet i) {s t : State}
    (h : execAll is s = some t) : t.policy = s.policy := by
  induction is generalizing s with
  | nil =>
    cases h
    rfl
  | cons i rest ih =>
    obtain ⟨hi, hrest⟩ := List.forall_mem_cons.mp his
    rw [execAll] at h
    cases hexec : exec i s with
    | next u =>
      rw [hexec] at h
      exact (ih hrest h).trans (exec_getOrSet_policy hi hexec)
    | fault _ | refused _ =>
      rw [hexec] at h
      cases h

/-- An INCRBY completes and sets `POLICY` to wrap, or faults and keeps it (42 R116). -/
theorem exec_incrby_policy {ty : FieldType} {off : Offset} {v : Value} {s t : State}
    (h : exec (.incrby ty off v) s = .next t) :
    (t.pc = s.pc + 1 ∧ t.policy = .wrap) ∨ (t.pc = s.pc ∧ t.run = .fault ∧ t.policy = s.policy) := by
  rcases exec_incrby_next h with ⟨_, rfl⟩ | ⟨_, r, hw, rfl⟩ | ⟨_, _, rfl⟩
  · exact .inl ⟨rfl, rfl⟩
  · refine .inl ⟨?_, rfl⟩
    rw [advance_pc, setPolicy_pc, append_pc, fieldWrite_ok hw]
  · exact .inr ⟨rfl, rfl, rfl⟩

/-! ### Who reads `POLICY`: the codec does not -/

theorem writeBits_setPolicy (off w v : Nat) (s : State) (p : Policy) (k : Nat) :
    writeBits off w v (s.setPolicy p) k = (writeBits off w v s k).setPolicy p := by
  induction k with
  | zero => rfl
  | succ k ih =>
    rw [writeBits, ih]
    rfl

/-- Under another policy a field write gives the same buffer and output, or the same fault. -/
theorem fieldWrite_setPolicy (s : State) (p : Policy) (off w : Nat) (val : Int) :
    fieldWrite (s.setPolicy p) off w val =
      (fieldWrite s off w val).map (fun r => ⟨r.state.setPolicy p, r.wrote⟩) := by
  have hgrow : ∀ k, (s.setPolicy p).grow k = (s.grow k).setPolicy p := fun _ => rfl
  have hguard : (s.setPolicy p).bitLen = s.bitLen := rfl
  have hgrowth : growthOf (s.setPolicy p) off w = growthOf s off w := rfl
  simp only [fieldWrite, writeGuarded, hgrow, hguard, hgrowth, writeBits_setPolicy, setPolicy_cfg, setPolicy_len]
  split_ifs <;> rfl

theorem exec_get_setPolicy {ty : FieldType} {off : Offset} {s t : State} (p : Policy)
    (h : exec (.get ty off) s = .next t) : exec (.get ty off) (s.setPolicy p) = .next (t.setPolicy p) := by
  rw [exec_get_next h]
  refine (withLegalType_of_legal _ (withLegalType_next h).1).trans ?_
  rw [fieldRead_setPolicy]
  rfl

theorem exec_set_setPolicy {ty : FieldType} {off : Offset} {v : Value} {s t : State} (p : Policy)
    (h : exec (.set ty off v) s = .next t) : exec (.set ty off v) (s.setPolicy p) = .next (t.setPolicy p) := by
  have hlegal : ty.legal = true := (withLegalType_next h).1
  have hwrite := fieldWrite_setPolicy s p (effectiveAddress ty off) ty.width v.toInt
  rcases exec_set_next h with ⟨r, hw, rfl⟩ | ⟨hw, rfl⟩ <;> rw [hw] at hwrite
  · rw [exec_set_of_ok hlegal hwrite, fieldRead_setPolicy]
    rfl
  · exact exec_set_of_error hlegal hwrite

/-! ### Completion and faults of an instruction -/

/-- An instruction that answers completed, with `PC` one further, or raised CAPACITY; it never shrinks the buffer. -/
theorem exec_completes_or_raises {i : Instr} {s t : State} (h : exec i s = .next t) :
    (t.run = s.run ∧ t.pc = s.pc + 1 ∧ s.len ≤ t.len) ∨ t = s.raise .capacity s.pc := by
  rcases exec_next h with ⟨u, rfl, hu, _, hbuf⟩ | rfl
  · have hlen : s.len ≤ u.len := by
      rcases hbuf with ⟨_, hlen⟩ | ⟨off, w, val, b, hw, _, hlen⟩
      · exact hlen.ge
      · exact hlen ▸ len_le_fieldWrite hw
    refine .inl ⟨?_, ?_, hlen⟩ <;> rw [hu] <;> rfl
  · exact .inr rfl

/-! ### The obligations -/

/-- Settles O25: a GET at a legal type is its record and the advance. -/
theorem getReturnsTheField : Obligations.GetReturnsTheField := fun ty _ _ hlegal =>
  ⟨withLegalType_of_legal _ hlegal, fieldRead_past_end ty⟩

/-- Settles O26, by whether the write fits; the field read is taken back to the state the write left. -/
theorem setWritesTheFieldAndReportsTheOldValue : Obligations.SetWritesTheFieldAndReportsTheOldValue := by
  intro ty off value s hlegal
  refine ⟨fun hfits => ?_, fun hnot => exec_set_of_error hlegal (fieldWrite_of_not_writeFits hnot _)⟩
  obtain ⟨r, hw⟩ := fieldWrite_of_writeFits hfits value.toInt
  have hstate := fieldWrite_ok hw
  refine ⟨_, exec_set_of_ok hlegal hw, ?_, ?_, fun hoff => ?_, fun hend => ?_, fun hg => ?_⟩
  · rw [hstate]
    rfl
  · rw [hstate]
    rfl
  · rw [fieldRead_advance, fieldRead_append, fieldRead_fieldWrite hw hoff]
  · rw [advance_len, append_len, fieldWrite_len hw hend.le, growthOf, hend, Nat.add_sub_cancel_left]
  · rw [fieldWrite_of_guarded hw hg]
    exact ⟨rfl, rfl, fieldRead_past_end ty hg.le⟩

/-- Settles O27: refused, or written, or a write that does not fit. -/
theorem incrbyRefusesOrWritesTheNewValue : Obligations.IncrbyRefusesOrWritesTheNewValue := by
  intro ty off increment s hlegal ea result
  refine ⟨fun href => exec_incrby_of_refused hlegal (incrbyRefused_iff.mpr href), fun hnot hfits => ?_,
    fun hnot hcap => exec_incrby_of_error hlegal (mt incrbyRefused_iff.mp hnot) (fieldWrite_of_not_writeFits hcap _)⟩
  obtain ⟨r, hw⟩ := fieldWrite_of_writeFits hfits result.1
  have hstate := fieldWrite_ok hw
  refine ⟨_, exec_incrby_of_ok hlegal (mt incrbyRefused_iff.mp hnot) hw, ?_, ?_, fun hoff => ?_, fun hg => ?_⟩
  · rw [hstate]
    rfl
  · rw [hstate]
    rfl
  · rw [fieldRead_advance, fieldRead_setPolicy, fieldRead_append, fieldRead_fieldWrite hw hoff]
    exact signExt_lowBits_incrbyCompute hlegal ea increment s
  · rw [fieldWrite_of_guarded hw hg]
    exact ⟨rfl, rfl⟩

/-- Settles O28: OVERFLOW sets `POLICY`, GET and SET keep it, and an INCRBY that advances `PC` has reset it. -/
theorem incrbyConsumesThePolicy : Obligations.IncrbyConsumesThePolicy := by
  refine ⟨fun _ _ _ _ _ => exec_incrby_policy, fun ty off _ _ => exec_getOrSet_policy (.inl ⟨ty, off, rfl⟩),
    fun _ _ _ _ _ => exec_set_policy, fun p between s t t' hbetween hset hrun => ⟨?_, ?_⟩⟩
  · cases hset
    exact execAll_getOrSet_policy hbetween hrun
  · intro ty off increment r h hpc
    rcases exec_incrby_policy h with ⟨_, hwrap⟩ | ⟨hsame, _⟩
    · exact hwrap
    · omega

/-- Settles O29: past the end the field reads 0 and the write is the guarded no-op. -/
theorem incrbyAtAGuardedPosition : Obligations.IncrbyAtAGuardedPosition := by
  intro ty off increment s hlegal hg result
  have hresult : incrbyCompute ty (effectiveAddress ty off) increment s = result := incrbyCompute_past_end hg.le
  by_cases href : s.policy = .fail ∧ result.2 ≠ .none
  · rw [exec_incrby_of_refused hlegal (incrbyRefused_iff.mpr (hresult ▸ href)), hresult, if_pos href]
    rfl
  · rw [exec_incrby_of_ok hlegal (mt incrbyRefused_iff.mp (hresult ▸ href)) (fieldWrite_of_past_end hg _ _), hresult,
      if_neg href]
    rfl

/-- Settles O32: GET appends a record, OVERFLOW sets `POLICY`, and both advance. -/
theorem frameOfGetAndOverflow : Obligations.FrameOfGetAndOverflow := by
  rintro i s t (⟨ty, off, rfl⟩ | ⟨p, rfl⟩) h
  · obtain rfl := exec_get_next h
    exact ⟨fun _ => rfl, rfl, rfl, rfl, rfl, rfl, rfl, fun _ => rfl, nofun⟩
  · cases h
    exact ⟨fun _ => rfl, rfl, rfl, rfl, rfl, rfl, rfl, nofun, fun _ => rfl⟩

/-- Settles O39: the end of the batch, an instruction that completes or raises CAPACITY, or an illegal word. -/
theorem stepKeepsTheBatchAndAdvancesByOne : Obligations.StepKeepsTheBatchAndAdvancesByOne := by
  intro s t h
  obtain ⟨hrun, ⟨_, rfl⟩ | ⟨c, _, ⟨i, _, hexec⟩ | ⟨_, rfl⟩⟩⟩ := step_next h
  · exact ⟨rfl, rfl, le_rfl, nofun, fun _ => ⟨rfl, .inl rfl⟩⟩
  · obtain ⟨hcfg, hcmd⟩ := exec_keeps_batch hexec
    rcases exec_completes_or_raises hexec with ⟨hsame, hpc, hlen⟩ | rfl
    · exact ⟨hcmd, hcfg, hlen, fun _ => hpc, fun hne => absurd (hsame.trans hrun) hne⟩
    · exact ⟨rfl, rfl, le_rfl, nofun, fun _ => ⟨rfl, .inr rfl⟩⟩
  · exact ⟨rfl, rfl, le_rfl, nofun, fun _ => ⟨rfl, .inr rfl⟩⟩

/-- Settles O51: the codec reads the buffer only, so GET and SET commute with a change of `POLICY`. -/
theorem getAndSetDoNotSeeThePolicy : Obligations.GetAndSetDoNotSeeThePolicy := by
  rintro i p s t (⟨ty, off, rfl⟩ | ⟨ty, off, v, rfl⟩) h
  · exact exec_get_setPolicy p h
  · exact exec_set_setPolicy p h

end Sys2Proof.Machine

/-! PROOFS. The family 30_encoding.md: the legal words by their fields, the decoder and the encoder as inverses, the
opcode map, the record format, and the assembler's words. -/

namespace Sys2Proof.Machine

/-! ### Legal words by their fields -/

theorem policyOf_eq_some {pol : BitVec 8} {p : Policy} : policyOf pol = some p ↔ pol = BitVec.ofNat 8 p.code := by
  constructor
  · intro h
    unfold policyOf at h
    split_ifs at h <;> cases h <;> assumption
  · rintro rfl
    exact policyOf_code p

/-- `POL` holds a policy exactly when its code is at most 2 (30 R55). -/
theorem exists_policyOf_iff {pol : BitVec 8} : (∃ p, policyOf pol = some p) ↔ pol.toNat ≤ 2 := by
  simp only [policyOf_eq_some]
  constructor
  · rintro ⟨p, rfl⟩
    cases p <;> decide
  · intro h
    have hcode : pol = 0#8 ∨ pol = 1#8 ∨ pol = 2#8 := by bv_omega
    rcases hcode with rfl | rfl | rfl
    · exact ⟨.wrap, rfl⟩
    · exact ⟨.saturate, rfl⟩
    · exact ⟨.fail, rfl⟩

/-- The width conditions of 30 R58 say that the word names a legal type. -/
theorem legalWidth_eq_legal_typeOf (c : CommandWord) : legalWidth c = (typeOf c).legal := by
  have hs : (typeOf c).sign = signednessOf (fieldS c) := rfl
  have hw : (typeOf c).width = (fieldW c).toNat := rfl
  rw [Bool.eq_iff_iff]
  unfold legalWidth FieldType.legal
  rw [hs, hw]
  by_cases h : fieldS c = 1#1 <;> simp [h, signednessOf, Signedness.maxWidth]
  omega

/-- A legal word of each operation, in the terms the decoder reads it in. -/
theorem legal_iff {c : CommandWord} : legal c = true ↔
    (fieldReservedHigh c = 0#2 ∧ fieldReservedLow c = 0#8) ∧
      ((fieldOp c = 1#4 ∧ fieldPol c = 0#8 ∧ fieldOperand c = 0#64 ∧ (typeOf c).legal = true) ∨
       (fieldOp c = 2#4 ∧ fieldPol c = 0#8 ∧ (typeOf c).legal = true) ∨
       (fieldOp c = 3#4 ∧ fieldPol c = 0#8 ∧ (typeOf c).legal = true) ∨
       (fieldOp c = 4#4 ∧ fieldE c = 0#1 ∧ fieldS c = 0#1 ∧ fieldW c = 0#8 ∧ (∃ p, policyOf (fieldPol c) = some p) ∧
          fieldOffset c = 0#64 ∧ fieldOperand c = 0#64)) := by
  simp only [legal, legalWidth_eq_legal_typeOf, Bool.and_eq_true, Bool.or_eq_true, decide_eq_true_eq,
    exists_policyOf_iff, and_assoc, or_assoc]

/-- A word that decodes is legal. -/
theorem legal_of_decode_ok {c : CommandWord} {i : Instr} (h : decode c = .ok i) : legal c = true := by
  obtain ⟨hres, ⟨hop, hz, hpol, hty, _⟩ | ⟨hop, hpol, hty, _⟩ | ⟨hop, hpol, hty, _⟩ |
    ⟨hop, ⟨he, hs, hw, hoff, hz⟩, p, hp, _⟩⟩ := decode_ok h
  · exact legal_iff.mpr ⟨hres, .inl ⟨hop, hpol, hz, hty⟩⟩
  · exact legal_iff.mpr ⟨hres, .inr (.inl ⟨hop, hpol, hty⟩)⟩
  · exact legal_iff.mpr ⟨hres, .inr (.inr (.inl ⟨hop, hpol, hty⟩))⟩
  · exact legal_iff.mpr ⟨hres, .inr (.inr (.inr ⟨hop, he, hs, hw, ⟨p, hp⟩, hoff, hz⟩))⟩

/-! ### What the decoder reads from a legal word -/

theorem decodeField_of_legal {c : CommandWord} (i : Instr) (hpol : fieldPol c = 0#8) (hty : (typeOf c).legal = true) :
    decodeField c i = .ok i := by
  rw [decodeField, if_pos hpol, if_pos hty]

section legal
variable {c : CommandWord} (h : legal c = true)
include h

theorem decode_get_of_legal (hop : fieldOp c = 1#4) :
    decode c = .ok (.get (typeOf c) (offsetOf (fieldE c) (fieldOffset c))) := by
  have h := legal_iff.mp h
  simp only [hop, true_and, BitVec.reduceEq, false_and, or_self, or_false] at h
  obtain ⟨hres, hpol, hz, hty⟩ := h
  rw [decode, if_pos hres, if_pos hop, if_pos hz, decodeField_of_legal _ hpol hty]

theorem decode_set_of_legal (hop : fieldOp c = 2#4) :
    decode c = .ok (.set (typeOf c) (offsetOf (fieldE c) (fieldOffset c)) (fieldOperand c)) := by
  have h := legal_iff.mp h
  simp only [hop, BitVec.reduceEq, false_and, true_and, or_self, or_false, false_or] at h
  obtain ⟨hres, hpol, hty⟩ := h
  simp [decode, hres, hop, decodeField_of_legal _ hpol hty]

theorem decode_incrby_of_legal (hop : fieldOp c = 3#4) :
    decode c = .ok (.incrby (typeOf c) (offsetOf (fieldE c) (fieldOffset c)) (fieldOperand c)) := by
  have h := legal_iff.mp h
  simp only [hop, BitVec.reduceEq, false_and, true_and, or_false, false_or] at h
  obtain ⟨hres, hpol, hty⟩ := h
  simp [decode, hres, hop, decodeField_of_legal _ hpol hty]

theorem decode_overflow_of_legal (hop : fieldOp c = 4#4) :
    ∃ p, policyOf (fieldPol c) = some p ∧ decode c = .ok (.overflow p) := by
  have h := legal_iff.mp h
  simp only [hop, BitVec.reduceEq, false_and, true_and, false_or] at h
  obtain ⟨hres, he, hs, hw, ⟨p, hp⟩, hoff, hz⟩ := h
  refine ⟨p, hp, ?_⟩
  simp [decode, hres, hop, decodeOverflow, he, hs, hw, hoff, hz, hp]

end legal

/-- The decoder reads exactly the legal words. -/
theorem legal_iff_decode_ok {c : CommandWord} : legal c = true ↔ ∃ i, decode c = .ok i := by
  refine ⟨fun h => ?_, fun ⟨i, hi⟩ => legal_of_decode_ok hi⟩
  obtain ⟨_, ⟨hop, _⟩ | ⟨hop, _⟩ | ⟨hop, _⟩ | ⟨hop, _⟩⟩ := legal_iff.mp h
  · exact ⟨_, decode_get_of_legal h hop⟩
  · exact ⟨_, decode_set_of_legal h hop⟩
  · exact ⟨_, decode_incrby_of_legal h hop⟩
  · obtain ⟨p, _, hp⟩ := decode_overflow_of_legal h hop
    exact ⟨_, hp⟩

theorem legal_eq_false_iff_decode_error {c : CommandWord} : legal c = false ↔ ∃ e, decode c = .error e := by
  rw [← Bool.not_eq_true, legal_iff_decode_ok]
  cases decode c <;> simp

/-! ### The encoder -/

/-- The encoder's word of a well-formed instruction is legal (30 R67). -/
theorem legal_encode {i : Instr} (h : i.wellFormed = true) : legal (encode i) = true := by
  cases i with
  | get ty off => exact Laws.EncodesLegally.get ty off h
  | set ty off v => exact Laws.EncodesLegally.set ty off v h
  | incrby ty off v => exact Laws.EncodesLegally.incrby ty off v h
  | overflow p => exact Laws.EncodesLegally.overflow p h

section encodeField
variable (op : BitVec 4) (ty : FieldType) (off : Offset) (operand : BitVec 64)

@[simp] theorem fieldOp_encodeField : fieldOp (encodeField op ty off operand) = op := fieldOp_wordOfFields ..

@[simp] theorem fieldOperand_encodeField : fieldOperand (encodeField op ty off operand) = operand :=
  fieldOperand_wordOfFields ..

@[simp] theorem offsetOf_encodeField :
    offsetOf (fieldE (encodeField op ty off operand)) (fieldOffset (encodeField op ty off operand)) = off := by
  rw [encodeField, fieldE_wordOfFields, fieldOffset_wordOfFields, offsetOf_code]

end encodeField

theorem decode_encode {i : Instr} (h : i.wellFormed = true) : decode (encode i) = .ok i := by
  have hlegal : legal (encode i) = true := legal_encode h
  cases i with
  | get ty off =>
    rw [decode_get_of_legal hlegal (fieldOp_encodeField ..), encode, typeOf_encodeField _ _ h, offsetOf_encodeField]
  | set ty off v =>
    rw [decode_set_of_legal hlegal (fieldOp_encodeField ..), encode, typeOf_encodeField _ _ h, offsetOf_encodeField,
      fieldOperand_encodeField]
  | incrby ty off v =>
    rw [decode_incrby_of_legal hlegal (fieldOp_encodeField ..), encode, typeOf_encodeField _ _ h, offsetOf_encodeField,
      fieldOperand_encodeField]
  | overflow p =>
    obtain ⟨q, hq, hdec⟩ := decode_overflow_of_legal hlegal (fieldOp_wordOfFields ..)
    rw [encode, fieldPol_wordOfFields, policyOf_code] at hq
    rwa [← Option.some.inj hq] at hdec

/-- The word of a command that names a field is put together from the operands read from it. -/
theorem encodeField_fields {c : CommandWord} (hres : fieldReservedHigh c = 0#2 ∧ fieldReservedLow c = 0#8)
    (hpol : fieldPol c = 0#8) :
    encodeField (fieldOp c) (typeOf c) (offsetOf (fieldE c) (fieldOffset c)) (fieldOperand c) = c := by
  have hword := wordOfFields_fields hres.1 hres.2
  rw [hpol] at hword
  rwa [encodeField, modeCode_offsetOf, number_offsetOf, typeOf, code_signednessOf, BitVec.ofNat_toNat,
    BitVec.setWidth_eq]

theorem encode_decode {c : CommandWord} {i : Instr} (h : decode c = .ok i) : i.wellFormed = true ∧ encode i = c := by
  obtain ⟨hres, ⟨hop, hz, hpol, hty, rfl⟩ | ⟨hop, hpol, hty, rfl⟩ | ⟨hop, hpol, hty, rfl⟩ |
    ⟨hop, ⟨he, hs, hw, hoff, hz⟩, p, hp, rfl⟩⟩ := decode_ok h
  · refine ⟨hty, ?_⟩
    rw [encode, ← hop, ← hz, encodeField_fields hres hpol]
  · refine ⟨hty, ?_⟩
    rw [encode, ← hop, encodeField_fields hres hpol]
  · refine ⟨hty, ?_⟩
    rw [encode, ← hop, encodeField_fields hres hpol]
  · refine ⟨rfl, ?_⟩
    have hword := wordOfFields_fields hres.1 hres.2
    rwa [hop, he, hs, hw, hoff, hz, policyOf_eq_some.mp hp] at hword

/-! ### The opcode map -/

/-- Words with equal slices have equal bits there. -/
theorem getLsbD_eq_of_extract_eq {c d : CommandWord} {start len i : Nat}
    (h : c.extractLsb' start len = d.extractLsb' start len) (hi : start ≤ i ∧ i < start + len) :
    c.getLsbD i = d.getLsbD i := by
  have hbit := congrArg (fun x => x.getLsbD (i - start)) h
  simpa [show i - start < len by omega, Nat.add_sub_cancel' hi.1] using hbit

/-- The nine fields cover a word. -/
theorem word_ext_iff {c d : CommandWord} : c = d ↔
    fieldOp c = fieldOp d ∧ fieldReservedHigh c = fieldReservedHigh d ∧ fieldE c = fieldE d ∧ fieldS c = fieldS d ∧
    fieldW c = fieldW d ∧ fieldPol c = fieldPol d ∧ fieldReservedLow c = fieldReservedLow d ∧
    fieldOffset c = fieldOffset d ∧ fieldOperand c = fieldOperand d := by
  refine ⟨fun h => by simp [h], fun ⟨hop, hrh, he, hs, hw, hpol, hrl, hoff, hz⟩ => ?_⟩
  apply BitVec.eq_of_getLsbD_eq
  intro i hi
  rcases show i < 64 ∨ (64 ≤ i ∧ i < 128) ∨ (128 ≤ i ∧ i < 136) ∨ (136 ≤ i ∧ i < 144) ∨ (144 ≤ i ∧ i < 152) ∨
      (152 ≤ i ∧ i < 153) ∨ (153 ≤ i ∧ i < 154) ∨ (154 ≤ i ∧ i < 156) ∨ (156 ≤ i ∧ i < 160) by omega with
    h | h | h | h | h | h | h | h | h
  · exact getLsbD_eq_of_extract_eq hz (by omega)
  · exact getLsbD_eq_of_extract_eq hoff h
  · exact getLsbD_eq_of_extract_eq hrl h
  · exact getLsbD_eq_of_extract_eq hpol h
  · exact getLsbD_eq_of_extract_eq hw h
  · exact getLsbD_eq_of_extract_eq hs h
  · exact getLsbD_eq_of_extract_eq he h
  · exact getLsbD_eq_of_extract_eq hrh h
  · exact getLsbD_eq_of_extract_eq hop h

/-- A mask of ones keeps a field whole, at the widths of the fields. -/
theorem field_and_ones : (∀ x : BitVec 1, x &&& 1#1 = x) ∧ (∀ x : BitVec 2, x &&& 3#2 = x) ∧
    (∀ x : BitVec 4, x &&& 15#4 = x) ∧ (∀ x : BitVec 8, x &&& 255#8 = x) ∧
    (∀ x : BitVec 64, x &&& 18446744073709551615#64 = x) :=
  ⟨fun _ => BitVec.and_allOnes, fun _ => BitVec.and_allOnes, fun _ => BitVec.and_allOnes, fun _ => BitVec.and_allOnes,
    fun _ => BitVec.and_allOnes⟩

/-- A masked comparison, field by field. -/
theorem and_eq_iff_fields {c m p : CommandWord} : c &&& m = p ↔
    fieldOp c &&& fieldOp m = fieldOp p ∧ fieldReservedHigh c &&& fieldReservedHigh m = fieldReservedHigh p ∧
    fieldE c &&& fieldE m = fieldE p ∧ fieldS c &&& fieldS m = fieldS p ∧ fieldW c &&& fieldW m = fieldW p ∧
    fieldPol c &&& fieldPol m = fieldPol p ∧ fieldReservedLow c &&& fieldReservedLow m = fieldReservedLow p ∧
    fieldOffset c &&& fieldOffset m = fieldOffset p ∧ fieldOperand c &&& fieldOperand m = fieldOperand p := by
  simp only [word_ext_iff, fieldOp, fieldReservedHigh, fieldE, fieldS, fieldW, fieldPol, fieldReservedLow, fieldOffset,
    fieldOperand, BitVec.extractLsb'_and]

theorem matches_iff {r : TableRow} {c : CommandWord} :
    r.matches c = true ↔ c &&& r.mask = r.pattern ∧ r.residual c = true := by
  rw [TableRow.matches, Bool.and_eq_true, decide_eq_true_eq]

section rows
variable {c : CommandWord}

theorem matches_getRow : opcodeTable[0].matches c = true ↔
    fieldOp c = 1#4 ∧ fieldReservedHigh c = 0#2 ∧ fieldPol c = 0#8 ∧ fieldReservedLow c = 0#8 ∧
    fieldOperand c = 0#64 ∧ legalWidth c = true := by
  simp [opcodeTable, matches_iff, and_eq_iff_fields, field_and_ones, fieldOp, fieldReservedHigh, fieldE, fieldS,
    fieldW, fieldPol, fieldReservedLow, fieldOffset, fieldOperand, and_assoc]

theorem matches_setRow : opcodeTable[1].matches c = true ↔
    fieldOp c = 2#4 ∧ fieldReservedHigh c = 0#2 ∧ fieldPol c = 0#8 ∧ fieldReservedLow c = 0#8 ∧
    legalWidth c = true := by
  simp [opcodeTable, matches_iff, and_eq_iff_fields, field_and_ones, fieldOp, fieldReservedHigh, fieldE, fieldS,
    fieldW, fieldPol, fieldReservedLow, fieldOffset, fieldOperand, and_assoc]

theorem matches_incrbyRow : opcodeTable[2].matches c = true ↔
    fieldOp c = 3#4 ∧ fieldReservedHigh c = 0#2 ∧ fieldPol c = 0#8 ∧ fieldReservedLow c = 0#8 ∧
    legalWidth c = true := by
  simp [opcodeTable, matches_iff, and_eq_iff_fields, field_and_ones, fieldOp, fieldReservedHigh, fieldE, fieldS,
    fieldW, fieldPol, fieldReservedLow, fieldOffset, fieldOperand, and_assoc]

theorem matches_overflowRow : opcodeTable[3].matches c = true ↔
    fieldOp c = 4#4 ∧ fieldReservedHigh c = 0#2 ∧ fieldE c = 0#1 ∧ fieldS c = 0#1 ∧ fieldW c = 0#8 ∧
    fieldReservedLow c = 0#8 ∧ fieldOffset c = 0#64 ∧ fieldOperand c = 0#64 ∧ (fieldPol c).toNat ≤ 2 := by
  have hpol : opcodeTable[3].residual c = true ↔ (fieldPol c).toNat ≤ 2 := decide_eq_true_iff
  rw [matches_iff, hpol]
  simp [opcodeTable, and_eq_iff_fields, field_and_ones, fieldOp, fieldReservedHigh, fieldE, fieldS, fieldW, fieldPol,
    fieldReservedLow, fieldOffset, fieldOperand, and_assoc]

theorem any_matches_iff_legal : opcodeTable.any (fun r => r.matches c) = true ↔ legal c = true := by
  have hrows : opcodeTable = [opcodeTable[0], opcodeTable[1], opcodeTable[2], opcodeTable[3]] := rfl
  rw [hrows]
  simp only [List.any_cons, List.any_nil, Bool.or_false, Bool.or_eq_true, matches_getRow, matches_setRow,
    matches_incrbyRow, matches_overflowRow, legal, Bool.and_eq_true, decide_eq_true_eq]
  constructor
  · rintro (⟨hop, hrh, hpol, hrl, hz, hw⟩ | ⟨hop, hrh, hpol, hrl, hw⟩ | ⟨hop, hrh, hpol, hrl, hw⟩ |
      ⟨hop, hrh, he, hs, hw, hrl, hoff, hz, hpol⟩) <;> simp [*]
  · rintro ⟨⟨hrh, hrl⟩, ((⟨⟨hop, hpol, hz⟩, hw⟩ | ⟨⟨hop, hpol⟩, hw⟩) | ⟨⟨hop, hpol⟩, hw⟩) |
      ⟨hop, he, hs, hw, hpol, hoff, hz⟩⟩ <;> simp [*]

end rows

/-- A word that matches a row whose mask covers `OP` has the row's `OP`. -/
theorem fieldOp_of_matches {r : TableRow} {c : CommandWord} (hmask : fieldOp r.mask = 15#4)
    (h : r.matches c = true) : fieldOp c = fieldOp r.pattern := by
  obtain ⟨hmatch, _⟩ := matches_iff.mp h
  obtain ⟨hop, _⟩ := and_eq_iff_fields.mp hmatch
  obtain ⟨_, _, hones, _⟩ := field_and_ones
  rwa [hmask, hones] at hop

theorem opcodeTable_covers_op : ∀ r ∈ opcodeTable, fieldOp r.mask = 15#4 := by
  simp [opcodeTable, fieldOp]

theorem opcodeTable_ops_differ : opcodeTable.Pairwise (fun a b => fieldOp a.pattern ≠ fieldOp b.pattern) := by
  simp [opcodeTable, fieldOp]

/-! ### The record format -/

section pack
variable (r : ResultRecord)

theorem refused_pack : r.pack.extractLsb' 66 1 = BitVec.ofBool r.refused := by
  simp (disch := omega) only [ResultRecord.pack, extract_append_high, Nat.reduceSub, BitVec.extractLsb'_eq_self]

theorem ovf_pack : r.pack.extractLsb' 64 2 = r.ovf.code := by
  simp (disch := omega) only [ResultRecord.pack, extract_append_high, extract_append_low, Nat.reduceSub,
    BitVec.extractLsb'_eq_self]

theorem value_pack : r.pack.extractLsb' 0 64 = r.value := by
  simp (disch := omega) only [ResultRecord.pack, extract_append_low, BitVec.extractLsb'_eq_self]

end pack

theorem indicatorCode_injective {a b : Indicator} (h : a.code = b.code) : a = b := by
  revert h
  cases a <;> cases b <;> decide

theorem pack_injective {r q : ResultRecord} (h : r.pack = q.pack) : r = q := by
  have hrefused := congrArg (fun x => x.extractLsb' 66 1) h
  have hovf := congrArg (fun x => x.extractLsb' 64 2) h
  have hvalue := congrArg (fun x => x.extractLsb' 0 64) h
  simp only [refused_pack, ovf_pack, value_pack] at hrefused hovf hvalue
  obtain ⟨refused, ovf, value⟩ := r
  obtain ⟨refused', ovf', value'⟩ := q
  rw [ResultRecord.mk.injEq]
  exact ⟨BitVec.ofBool_eq_iff_eq.mp hrefused, indicatorCode_injective hovf, hvalue⟩

/-! ### The assembler -/

theorem expect_ok {α : Type} {e : AsmError} {o : Option α} {a : α} (h : expect e o = .ok a) : o = some a := by
  cases o <;> cases h
  rfl

theorem bind_ok {α β : Type} {x : Except AsmError α} {f : α → Except AsmError β} {b : β} (h : x >>= f = .ok b) :
    ∃ a, x = .ok a ∧ f a = .ok b := by
  cases x with
  | error e => cases h
  | ok a => exact ⟨a, rfl, h⟩

theorem parseGet_wellFormed {t o : Token} {i : Instr} (h : parseGet t o = .ok i) : i.wellFormed = true := by
  obtain ⟨ty, hty, h⟩ := bind_ok h
  obtain ⟨off, _, h⟩ := bind_ok h
  cases h
  exact typeToken_legal (expect_ok hty)

theorem parseSet_wellFormed {t o v : Token} {i : Instr} (h : parseSet t o v = .ok i) : i.wellFormed = true := by
  obtain ⟨ty, hty, h⟩ := bind_ok h
  obtain ⟨off, _, h⟩ := bind_ok h
  obtain ⟨value, _, h⟩ := bind_ok h
  cases h
  exact typeToken_legal (expect_ok hty)

theorem parseIncrby_wellFormed {t o n : Token} {i : Instr} (h : parseIncrby t o n = .ok i) : i.wellFormed = true := by
  obtain ⟨ty, hty, h⟩ := bind_ok h
  obtain ⟨off, _, h⟩ := bind_ok h
  obtain ⟨increment, _, h⟩ := bind_ok h
  cases h
  exact typeToken_legal (expect_ok hty)

theorem parseOverflow_wellFormed {p : Token} {i : Instr} (h : parseOverflow p = .ok i) : i.wellFormed = true := by
  obtain ⟨policy, _, h⟩ := bind_ok h
  cases h
  rfl

/-- One sub-operation in front of the rest: well formed when both are. -/
theorem cons_wellFormed {x : Except AsmError Instr} {y : Except AsmError (List Instr)} {ops : List Instr}
    (hx : ∀ {i}, x = .ok i → i.wellFormed = true) (hy : ∀ {rest}, y = .ok rest → ∀ i ∈ rest, i.wellFormed = true)
    (h : (do return (← x) :: (← y)) = Except.ok ops) : ∀ i ∈ ops, i.wellFormed = true := by
  obtain ⟨i, hi, h⟩ := bind_ok h
  obtain ⟨rest, hrest, h⟩ := bind_ok h
  cases h
  exact List.forall_mem_cons.mpr ⟨hx hi, hy hrest⟩

theorem parseOps_wellFormed {ts : List Token} {ops : List Instr} (h : parseOps ts = .ok ops) :
    ∀ i ∈ ops, i.wellFormed = true := by
  induction ts using parseOps.induct generalizing ops with
  | case1 =>
    cases h
    exact List.forall_mem_nil _
  | case2 t o more ih =>
    rw [parseOps.eq_def] at h
    exact cons_wellFormed parseGet_wellFormed ih h
  | case4 t o v more _ ih =>
    rw [parseOps.eq_def] at h
    exact cons_wellFormed parseSet_wellFormed ih h
  | case6 t o n more _ _ ih =>
    rw [parseOps.eq_def] at h
    exact cons_wellFormed parseIncrby_wellFormed ih h
  | case8 p more _ _ _ ih =>
    rw [parseOps.eq_def] at h
    exact cons_wellFormed parseOverflow_wellFormed ih h
  -- too few tokens, or no keyword: no batch
  | case3 _ _ | case5 _ _ _ | case7 _ _ _ _ | case9 _ _ _ _ _ | case10 _ _ _ _ _ _ =>
    rw [parseOps.eq_def] at h
    simp_all

/-! ### The obligations -/

/-- Settles O2: an encoded word holds its instruction's operands, and a decoded one is put together from them. -/
theorem decodeEncodeInverse : Obligations.DecodeEncodeInverse :=
  ⟨fun _ => decode_encode, fun _ _ => encode_decode⟩

/-- Settles O3: the decoder reads exactly the legal words, and each operation's word by its own lemma. -/
theorem decodeReadsEachField : Obligations.DecodeReadsEachField := by
  intro c
  refine ⟨legal_eq_false_iff_decode_error, fun h => ⟨decode_get_of_legal h, decode_set_of_legal h,
    decode_incrby_of_legal h, fun hop => ?_⟩⟩
  obtain ⟨p, hp, hdec⟩ := decode_overflow_of_legal h hop
  refine ⟨p, ?_, hdec⟩
  rw [policyOf_eq_some.mp hp]
  cases p <;> rfl

/-- Settles O4: the masks cover whole fields, and the rows differ in `OP`. -/
theorem legalMatchesOpcodeTable : Obligations.LegalMatchesOpcodeTable := by
  intro c
  refine ⟨Bool.eq_iff_iff.mpr any_matches_iff_legal.symm, opcodeTable_ops_differ.imp_of_mem ?_⟩
  rintro a b ha hb hne ⟨hma, hmb⟩
  exact hne ((fieldOp_of_matches (opcodeTable_covers_op a ha) hma).symm.trans
    (fieldOp_of_matches (opcodeTable_covers_op b hb) hmb))

/-- Settles O5: each field is a slice of the record's bits, so the bits give the three fields back. -/
theorem recordBitsHoldTheRecord : Obligations.RecordBitsHoldTheRecord := by
  refine ⟨fun r => ⟨refused_pack r, ovf_pack r, value_pack r, ?_⟩, fun r q => pack_injective⟩
  cases r.ovf <;> decide

/-- Settles O53: a parsed sub-operation is well formed, and the encoder's word of it is legal. -/
theorem assembledWordsAreLegal : Obligations.AssembledWordsAreLegal := by
  intro text words h c hc
  unfold assemble at h
  cases hops : parseOps (tokens text) with
  | error e =>
    rw [hops] at h
    cases h
  | ok ops =>
    rw [hops] at h
    cases h
    obtain ⟨i, hi, rfl⟩ := List.mem_map.mp hc
    exact legal_encode (parseOps_wellFormed hops i hi)

/-- Settles O1: five words of the spec's table. -/
theorem specWordsDecode : Obligations.SpecWordsDecode := by
  unfold Obligations.SpecWordsDecode
  decide +kernel

/-- Settles O54: five texts of the spec. -/
theorem specTextsAssemble : Obligations.SpecTextsAssemble := by
  unfold Obligations.SpecTextsAssemble
  decide +kernel

end Sys2Proof.Machine

/-! PROOFS. The inserter and the primitives: the write guard, the round trip, the merge form of 40 R75, and `MemRead`
after `MemWrite`. -/

namespace Sys2Proof.Machine

/-! ### The size of a write's growth -/

/-- A write that passes the guard grows the buffer by at most the bytes its field takes (20 R39). -/
theorem growthOf_le {s : State} {off w : Nat} (hoff : off ≤ s.bitLen) : growthOf s off w ≤ ceilDiv w 8 := by
  unfold growthOf ceilDiv
  omega

theorem growthOf_at_end (s : State) (w : Nat) : growthOf s s.bitLen w = ceilDiv w 8 := by
  rw [growthOf, Nat.add_sub_cancel_left]

/-! ### The merge form of the inserter -/

/-- The merged window holds the field's bits at `pos` and the old window elsewhere. -/
theorem getLsbD_mergeWindow {win pos w v j : Nat} (hv : v < 2 ^ w) (hj : j < 72) :
    (mergeWindow win pos w v).getLsbD j = if pos ≤ j ∧ j < pos + w then v.testBit (j - pos) else win.testBit j := by
  have hhigh (h : ¬j - pos < w) : v.testBit (j - pos) = false :=
    Nat.testBit_lt_two_pow (hv.trans_le (Nat.pow_le_pow_right (by omega) (not_lt.mp h)))
  simp only [mergeWindow, BitVec.getLsbD_or, BitVec.getLsbD_and, BitVec.getLsbD_not, BitVec.getLsbD_shiftLeft,
    BitVec.getLsbD_ofNat, Nat.testBit_two_pow_sub_one, hj, show j - pos < 72 by omega, decide_true, Bool.true_and]
  by_cases hpos : j < pos
  · simp [hpos, show ¬pos ≤ j by omega]
  · by_cases hin : j - pos < w
    · simp [hpos, hin, show pos ≤ j ∧ j < pos + w by omega]
    · simp [hpos, hin, hhigh hin, show ¬j < pos + w by omega]

/-- Bit `j` of a window of 9 bytes, counted from its low end, is a bit of the buffer counted from its high end. -/
theorem testBit_memRead_window (s : State) (a : Nat) {j : Nat} (hj : j < 72) :
    (s.memRead a 9).testBit j = s.bufBit (8 * a + (71 - j)) := by
  rw [← shiftIn_bytes, ← testBit_shiftIn s (8 * a) (show 71 - j < 8 * 9 by omega)]
  congr 1
  omega

section writeBack
variable (a : Nat) (win : BitVec 72) (s : State)

/-- Writing the window back changes the cells and nothing else. -/
theorem writeBack_eq (k : Nat) : writeBack a win s k = { s with mem := (writeBack a win s k).mem } := by
  induction k with
  | zero => rfl
  | succ k ih =>
    rw [writeBack]
    split
    · conv_lhs => rw [ih]
    · exact ih

@[simp] theorem writeBack_len (k : Nat) : (writeBack a win s k).len = s.len := by rw [writeBack_eq]

theorem wf_writeBack (h : s.mem.wf = true) (k : Nat) : (writeBack a win s k).mem.wf = true := by
  induction k with
  | zero => exact h
  | succ k ih =>
    rw [writeBack]
    split
    · exact wf_write _ _ ih
    · exact ih

/-- The first `k` bytes of the window are written, those below `LEN`. -/
theorem read_writeBack (k b : Nat) : (writeBack a win s k).mem.read b =
    if a ≤ b ∧ b < a + k ∧ b < s.len then win.extractLsb' (8 * (8 - (b - a))) 8 else s.mem.read b := by
  induction k with
  | zero => rw [if_neg (by omega)]; rfl
  | succ k ih =>
    rw [writeBack, writeBack_len]
    by_cases hlen : a + k < s.len
    · rw [if_pos hlen, read_write, ih]
      by_cases hb : b = a + k
      · subst hb
        rw [if_pos rfl, if_pos (by omega), Nat.add_sub_cancel_left]
      · rw [if_neg hb]
        congr 1
        simp only [eq_iff_iff]
        omega
    · rw [if_neg hlen, ih]
      congr 1
      simp only [eq_iff_iff]
      omega

end writeBack

/-- Past the end the loop of the inserter writes nothing. -/
theorem read_writeBits_past_end {off w v : Nat} {s : State} (h : off + w ≤ s.bitLen) {k : Nat} (hk : k ≤ w) {b : Nat}
    (hb : s.len ≤ b) : (writeBits off w v s k).mem.read b = s.mem.read b := by
  induction k with
  | zero => rfl
  | succ k ih =>
    have hne : b ≠ (off + k) / 8 := by
      unfold State.bitLen at h
      omega
    rw [writeBits, State.setBufBit, read_write_other _ _ hne, ih (by omega)]

/-- The merged window written back sets the field's bits and no other bit. -/
theorem bufBit_writeBack_mergeWindow {s : State} {off w v : Nat} (hoff : off + w ≤ s.bitLen) (hw : w ≤ 64)
    (hv : v < 2 ^ w) (q : Nat) :
    (writeBack (off / 8) (mergeWindow (s.memRead (off / 8) 9) (72 - off % 8 - w) w v) s 9).bufBit q =
      if off ≤ q ∧ q < off + w then v.testBit (w - 1 - (q - off)) else s.bufBit q := by
  by_cases hq : q < s.bitLen
  · have hlen : q / 8 < s.len := by
      unfold State.bitLen at hq
      omega
    rw [bufBit_of_lt (by rwa [State.bitLen, writeBack_len]), read_writeBack]
    by_cases hin : off / 8 ≤ q / 8 ∧ q / 8 < off / 8 + 9
    · have hbit : 8 * (8 - (q / 8 - off / 8)) + (7 - q % 8) = 71 - (q - 8 * (off / 8)) := by omega
      rw [if_pos ⟨hin.1, hin.2, hlen⟩, BitVec.getLsbD_extractLsb', hbit, getLsbD_mergeWindow hv (by omega),
        testBit_memRead_window s _ (by omega), show 8 * (off / 8) + (71 - (71 - (q - 8 * (off / 8)))) = q by omega,
        decide_eq_true (by omega), Bool.true_and]
      by_cases hfield : off ≤ q ∧ q < off + w
      · rw [if_pos hfield, if_pos (by omega)]
        congr 1
        omega
      · rw [if_neg hfield, if_neg (by omega)]
    · rw [if_neg (by omega), if_neg (by omega), bufBit_of_lt hq]
  · rw [bufBit_of_le (by rw [State.bitLen, writeBack_len]; exact not_lt.mp hq), if_neg (by omega),
      bufBit_of_le (not_lt.mp hq)]

/-- Below `LEN` the cells of states whose bits agree everywhere agree. -/
theorem read_eq_of_bufBit_eq {s t : State} {b : Nat} (hs : b < s.len) (ht : b < t.len)
    (h : ∀ q, t.bufBit q = s.bufBit q) : t.mem.read b = s.mem.read b := by
  have hbyte := byteAt_eq_of_bufBit_eq (a := b) fun q _ => h q
  rwa [State.byteAt, State.byteAt, if_pos hs, if_pos ht] at hbyte

/-- Where the field lies inside the buffer, the merge form and the loop leave the same state. -/
theorem writeBack_mergeWindow {s : State} {off w v : Nat} (hoff : off + w ≤ s.bitLen) (hw : w ≤ 64) (hv : v < 2 ^ w)
    (hwf : s.mem.wf = true) :
    writeBack (off / 8) (mergeWindow (s.memRead (off / 8) 9) (72 - off % 8 - w) w v) s 9 = writeBits off w v s w := by
  have hmem : (writeBack (off / 8) (mergeWindow (s.memRead (off / 8) 9) (72 - off % 8 - w) w v) s 9).mem =
      (writeBits off w v s w).mem := by
    refine memory_ext (wf_writeBack _ _ _ hwf 9) (wf_writeBits hwf w) fun b => ?_
    by_cases hb : b < s.len
    · apply read_eq_of_bufBit_eq (by simpa using hb) (by simpa using hb)
      intro q
      rw [bufBit_writeBack_mergeWindow hoff hw hv, bufBit_writeBits hoff le_rfl]
    · rw [read_writeBack, if_neg (by omega), read_writeBits_past_end hoff le_rfl (not_lt.mp hb)]
  rw [writeBack_eq, hmem, ← writeBits_eq]

/-- A guarded write depends on what it puts only in the state it puts it in. -/
theorem writeGuarded_congr {s : State} {off w : Nat} {put put' : State → State}
    (h : put (s.grow (growthOf s off w)) = put' (s.grow (growthOf s off w))) :
    writeGuarded s off w put = writeGuarded s off w put' := by
  have hin (hle : ¬off + w > s.bitLen) : put s = put' s := by
    rw [growthOf_of_le (not_lt.mp hle)] at h
    exact h
  unfold writeGuarded
  split
  · rfl
  · split
    · rw [h]
    · next hle => rw [hin hle]

/-! ### The primitives -/

theorem read_memWriteFirst (s : State) (addr n v k b : Nat) : (s.memWriteFirst addr n v k).mem.read b =
    if addr ≤ b ∧ b < addr + k then BitVec.ofNat 8 (v / 2 ^ (8 * (n - 1 - (b - addr)))) else s.mem.read b := by
  induction k with
  | zero => rw [if_neg (by omega)]; rfl
  | succ k ih =>
    rw [State.memWriteFirst, read_write, ih]
    by_cases hb : b = addr + k
    · subst hb
      rw [if_pos rfl, if_pos (by omega), Nat.add_sub_cancel_left]
    · rw [if_neg hb]
      congr 1
      simp only [eq_iff_iff]
      omega

theorem byteAt_memWrite {s : State} {addr n : Nat} (v : Nat) (h : addr + n ≤ s.len) (b : Nat) :
    (s.memWrite addr n v).byteAt b =
      if addr ≤ b ∧ b < addr + n then BitVec.ofNat 8 (v / 2 ^ (8 * (n - 1 - (b - addr)))) else s.byteAt b := by
  have hlen : (s.memWrite addr n v).len = s.len := by rw [State.memWrite, memWriteFirst_eq]
  rw [State.byteAt, hlen, State.memWrite, read_memWriteFirst, State.byteAt]
  by_cases hb : addr ≤ b ∧ b < addr + n
  · rw [if_pos (by omega), if_pos hb, if_pos hb]
  · rw [if_neg hb, if_neg hb]

/-- The first `k` of `n` bytes laid out big-endian are the top of the number they lay out. -/
theorem memRead_of_bytes {s : State} {addr n v k : Nat} (hk : k ≤ n)
    (h : ∀ i < k, s.byteAt (addr + i) = BitVec.ofNat 8 (v / 2 ^ (8 * (n - 1 - i)))) :
    s.memRead addr k = v / 2 ^ (8 * (n - k)) % 2 ^ (8 * k) := by
  induction k with
  | zero => simp [State.memRead, Nat.mod_one]
  | succ k ih =>
    have hdiv : v / 2 ^ (8 * (n - k)) = v / 2 ^ (8 * (n - (k + 1))) / 2 ^ 8 := by
      rw [Nat.div_div_eq_div_mul, show n - k = n - (k + 1) + 1 by omega, Nat.mul_succ, pow_add]
    rw [State.memRead, ih (by omega) fun i hi => h i (by omega), h k (by omega), BitVec.toNat_ofNat, hdiv,
      show n - 1 - k = n - (k + 1) by omega, Nat.mul_succ, pow_add, Nat.mul_comm (2 ^ (8 * k)), Nat.mod_mul]
    omega

/-! ### The effective address -/

theorem effectiveAddress_lt {ty : FieldType} (h : ty.legal = true) (off : Offset) :
    effectiveAddress ty off < 2 ^ 70 := by
  obtain ⟨_, hw, _⟩ := width_bounds_of_legal h
  cases off with
  | absolute n =>
    rw [effectiveAddress]
    omega
  | element n =>
    calc n.toNat * ty.width ≤ n.toNat * 64 := Nat.mul_le_mul_left _ hw
      _ < 2 ^ 70 := by omega

/-! ### The obligations -/

/-- Settles O12: a write grows by `growthOf`, at the end by all of `ceil(w/8)`. -/
theorem writeGuardIsStrict : Obligations.WriteGuardIsStrict := by
  intro s off w val _ hw
  have hceil : ceilDiv w 8 ≤ 8 := by
    unfold ceilDiv
    omega
  refine ⟨fun hg => fieldWrite_of_past_end hg w val, fun hend hcap => ?_, fun t wrote h => ?_⟩
  · subst hend
    rw [← growthOf_at_end s w] at hcap ⊢
    obtain ⟨⟨t, wrote⟩, h⟩ := fieldWrite_of_writeFits (.inr (.inr hcap)) val
    obtain rfl : wrote = true := (fieldWrite_wrote h).trans (decide_eq_true le_rfl)
    exact ⟨t, h, fieldWrite_len h le_rfl⟩
  · have hwrote : wrote = decide (off ≤ s.bitLen) := fieldWrite_wrote h
    refine ⟨?_, hceil, by rw [hwrote, decide_eq_true_iff]⟩
    by_cases hoff : off ≤ s.bitLen
    · have hlen : t.len = s.len + growthOf s off w := fieldWrite_len h hoff
      have hgrowth := growthOf_le (w := w) hoff
      omega
    · have hsame : t = s := fieldWrite_of_guarded h (not_le.mp hoff)
      rw [hsame]
      exact Nat.le_add_right _ _

/-- Settles O15: the low bits read back, and a value of the field's range is its low bits extended. -/
theorem writeThenReadRoundTrips : Obligations.WriteThenReadRoundTrips := by
  intro s t wrote off ty val hlegal hoff h
  have hread : fieldRead t off ty = signExt ty (lowBits ty.width val) :=
    fieldRead_fieldWrite (r := ⟨t, wrote⟩) h hoff
  exact ⟨hread, fun hmin hmax => hread.trans (signExt_lowBits (width_bounds_of_legal hlegal).1 ⟨hmin, hmax⟩)⟩

/-- Settles O16: on the grown buffer the merged window and the loop leave the same bits, hence the same memory. -/
theorem mergeInserterRefinesFieldWrite : Obligations.MergeInserterRefinesFieldWrite := by
  intro s off w val _ hw hwf
  exact writeGuarded_congr
    (writeBack_mergeWindow (le_bitLen_grow_growthOf s off w) hw (lowBits_lt w val) (wf_zero _ _ hwf))

/-- Settles O17: the bytes written are those of the number, laid out big-endian. -/
theorem memReadAfterMemWrite : Obligations.MemReadAfterMemWrite := by
  intro s addr n v h
  refine ⟨?_, fun a ha => by rw [byteAt_memWrite v h, if_neg ha]⟩
  rw [memRead_of_bytes le_rfl, Nat.sub_self, Nat.mul_zero, pow_zero, Nat.div_one]
  intro i hi
  rw [byteAt_memWrite v h, if_pos (by omega), Nat.add_sub_cancel_left]

/-- Settles O24: the width of a legal type is at most `2^6`. -/
theorem effectiveAddressIsFormedInFull : Obligations.EffectiveAddressIsFormedInFull := fun _ n hlegal =>
  ⟨rfl, rfl, effectiveAddress_lt hlegal (.absolute n), effectiveAddress_lt hlegal (.element n)⟩

end Sys2Proof.Machine

/-! PROOFS. The instructions and the sequencer: which instructions answer, what a step runs, and which steps fault. -/

namespace Sys2Proof.Machine

/-! ### When an instruction answers -/

theorem withLegalType_of_not_legal {ty : FieldType} (o : Host.Outcome State Fault Refusal) (h : ty.legal = false) :
    withLegalType ty o = .refused .widthUndefined := if_neg (by rw [h]; exact Bool.false_ne_true)

theorem withLegalType_answers {ty : FieldType} (h : ty.legal = true) (s : State) (r : Except FaultCause State) :
    ∃ t, withLegalType ty (complete s r) = .next t := by
  rw [withLegalType_of_legal _ h]
  exact complete_answers s r

/-- A well-formed instruction completes or raises, in every state. -/
theorem exec_answers {i : Instr} (h : i.wellFormed = true) (s : State) : ∃ t, exec i s = .next t := by
  cases i with
  | get ty off => exact withLegalType_answers h s _
  | set ty off v => exact withLegalType_answers h s _
  | incrby ty off v => exact withLegalType_answers h s _
  | overflow p => exact ⟨_, rfl⟩

theorem exec_of_not_wellFormed {i : Instr} (h : i.wellFormed = false) (s : State) :
    exec i s = .refused .widthUndefined := by
  cases i with
  | get ty off => exact withLegalType_of_not_legal _ h
  | set ty off v => exact withLegalType_of_not_legal _ h
  | incrby ty off v => exact withLegalType_of_not_legal _ h
  | overflow p => cases h

/-! ### Which instructions raise CAPACITY -/

theorem fieldWrite_eq_error_iff {s : State} {off w : Nat} {val : Int} :
    fieldWrite s off w val = .error .capacity ↔ ¬WriteFits s off w := by
  refine ⟨fun h hfits => ?_, fun h => fieldWrite_of_not_writeFits h val⟩
  obtain ⟨r, hr⟩ := fieldWrite_of_writeFits hfits val
  rw [hr] at h
  cases h

theorem writeFits_of_ok {s : State} {r : WriteOutput} {off w : Nat} {val : Int} (h : fieldWrite s off w val = .ok r) :
    WriteFits s off w := by
  by_contra hnot
  rw [fieldWrite_of_not_writeFits hnot] at h
  cases h

theorem fieldWrite_run {s : State} {r : WriteOutput} {off w : Nat} {val : Int} (h : fieldWrite s off w val = .ok r) :
    r.state.run = s.run := by rw [fieldWrite_ok h]

section faults
variable {ty : FieldType} {off : Offset} {v : Value} {s t : State} (hs : s.run ≠ .fault)
include hs

theorem exec_set_faults_iff (h : exec (.set ty off v) s = .next t) :
    t.run = .fault ↔ ¬WriteFits s (effectiveAddress ty off) ty.width := by
  rcases exec_set_next h with ⟨r, hw, rfl⟩ | ⟨hw, rfl⟩
  · rw [advance_run, append_run, fieldWrite_run hw]
    exact iff_of_false hs (not_not.mpr (writeFits_of_ok hw))
  · exact iff_of_true rfl (fieldWrite_eq_error_iff.mp hw)

theorem exec_incrby_faults_iff (h : exec (.incrby ty off v) s = .next t) :
    t.run = .fault ↔ ¬IncrbyRefused ty off v s ∧ ¬WriteFits s (effectiveAddress ty off) ty.width := by
  rcases exec_incrby_next h with ⟨href, rfl⟩ | ⟨_, r, hw, rfl⟩ | ⟨hnot, hw, rfl⟩
  · exact iff_of_false hs fun ⟨hnot, _⟩ => hnot href
  · rw [advance_run, setPolicy_run, append_run, fieldWrite_run hw]
    exact iff_of_false hs fun ⟨_, hnot⟩ => hnot (writeFits_of_ok hw)
  · exact iff_of_true rfl ⟨hnot, fieldWrite_eq_error_iff.mp hw⟩

end faults

/-! ### What a step does -/

theorem step_of_not_running {s : State} (h : s.run ≠ .running) : step s = .fault (.notRunning s.run) := if_neg h

theorem step_at_end {s : State} (hrun : s.run = .running) (hpc : s.pc = s.ncmd) : step s = .next s.finish := by
  rw [step, sequencerStep, if_pos hrun, runningStep, if_pos hpc]

theorem step_of_fetch {s : State} (hrun : s.run = .running) (hpc : s.pc < s.ncmd) {c : CommandWord}
    (hc : s.fetch = some c) : step s = executeWord s c := by
  rw [step, sequencerStep, if_pos hrun, runningStep, if_neg hpc.ne, hc]

theorem executeWord_of_ok {c : CommandWord} {i : Instr} (h : decode c = .ok i) (s : State) :
    executeWord s c = exec i s := by rw [executeWord, h]

theorem executeWord_of_error {c : CommandWord} {e : DecodeError} (h : decode c = .error e) (s : State) :
    executeWord s c = .next (s.raise .illegalCmd s.pc) := by rw [executeWord, h]

theorem executeWord_answers (s : State) (c : CommandWord) : ∃ t, executeWord s c = .next t := by
  cases h : decode c with
  | ok i =>
    obtain ⟨hwf, _⟩ := encode_decode h
    rw [executeWord_of_ok h]
    exact exec_answers hwf s
  | error e => exact ⟨_, executeWord_of_error h s⟩

/-- A running state inside its batch has a step. -/
theorem step_answers {s : State} (hrun : s.run = .running) (hpc : s.pc ≤ s.ncmd) : ∃ t, step s = .next t := by
  rcases hpc.eq_or_lt with hend | hlt
  · exact ⟨_, step_at_end hrun hend⟩
  · rw [step_of_fetch hrun hlt (fetch_of_lt hlt)]
    exact executeWord_answers s _

theorem step_of_pc_gt {s : State} (hrun : s.run = .running) (hpc : s.ncmd < s.pc) :
    step s = .fault .pcOutsideBatch := by
  have hnone : s.fetch = none := List.getElem?_eq_none hpc.le
  rw [step, sequencerStep, if_pos hrun, runningStep, if_neg hpc.ne', hnone]

/-! ### The obligations -/

/-- Settles O30: OVERFLOW is the write of `POLICY` and the advance. -/
theorem overflowSetsThePolicy : Obligations.OverflowSetsThePolicy := fun _ _ => rfl

/-- Settles O34, by the instruction. -/
theorem wellFormedInstructionsAlwaysRun : Obligations.WellFormedInstructionsAlwaysRun :=
  ⟨fun _ s h => exec_answers h s, fun _ s h => exec_of_not_wellFormed h s⟩

/-- Settles O31: an instruction that does not write raises nothing, one that writes raises what its write raises. -/
theorem capacityFaultExactlyWhenGrowthDoesNotFit : Obligations.CapacityFaultExactlyWhenGrowthDoesNotFit := by
  intro i s t h hs
  refine ⟨?_, fun hfault => ?_⟩
  · cases i with
    | get ty off =>
      obtain rfl := exec_get_next h
      exact iff_of_false hs (by rintro (⟨_, _, _, heq, _⟩ | ⟨_, _, _, heq, _⟩) <;> cases heq)
    | set ty off v =>
      rw [exec_set_faults_iff hs h]
      refine ⟨fun hnot => .inl ⟨ty, off, v, rfl, hnot⟩, ?_⟩
      rintro (⟨_, _, _, heq, hnot⟩ | ⟨_, _, _, heq, _⟩) <;> cases heq
      exact hnot
    | incrby ty off v =>
      rw [exec_incrby_faults_iff hs h]
      refine ⟨fun hnot => .inr ⟨ty, off, v, rfl, hnot⟩, ?_⟩
      rintro (⟨_, _, _, heq, _⟩ | ⟨_, _, _, heq, hnot⟩) <;> cases heq
      exact hnot
    | overflow p =>
      cases h
      exact iff_of_false hs (by rintro (⟨_, _, _, heq, _⟩ | ⟨_, _, _, heq, _⟩) <;> cases heq)
  · rcases exec_completes_or_raises h with ⟨hsame, _⟩ | rfl
    · exact absurd (hsame.symm.trans hfault) hs
    · rfl

/-- Settles O35: the fetched word decodes to the instruction the step runs. -/
theorem stepRunsTheDecodedCommand : Obligations.StepRunsTheDecodedCommand := fun s _ _ hrun hpc hc hdec =>
  (step_of_fetch hrun hpc hc).trans (executeWord_of_ok hdec s)

/-- Settles O36: the sequencer looks for the end of the batch before it fetches. -/
theorem stepAtTheEndOfTheBatchIsDone : Obligations.StepAtTheEndOfTheBatchIsDone := fun _ => step_at_end

/-- Settles O37: the decoder refuses the illegal word. -/
theorem stepOnAnIllegalWordFaults : Obligations.StepOnAnIllegalWordFaults := by
  intro s c hrun hpc hc hillegal
  obtain ⟨e, he⟩ := legal_eq_false_iff_decode_error.mp hillegal
  exact (step_of_fetch hrun hpc hc).trans (executeWord_of_error he s)

/-- Settles O38: in the invariant a running `PC` lies in the batch or at its end, and a decoded word is well formed. -/
theorem stepExistsExactlyWhileRunning : Obligations.StepExistsExactlyWhileRunning := by
  refine ⟨fun s hinv => ⟨fun ⟨t, h⟩ => (step_next h).1, fun hrun => step_answers hrun (hinv.runningPc hrun)⟩,
    fun s => step_of_not_running, fun s r href => ?_⟩
  by_cases hrun : s.run = .running
  · rcases le_or_gt s.pc s.ncmd with hle | hgt
    · obtain ⟨t, ht⟩ := step_answers hrun hle
      rw [ht] at href
      cases href
    · rw [step_of_pc_gt hrun hgt] at href
      cases href
  · rw [step_of_not_running hrun] at href
    cases href

/-- Settles O40: a step ends in a fault by the fault entry only, at `PC`. -/
theorem faultsArePrecise : Obligations.FaultsArePrecise := by
  intro s t h hfault
  obtain ⟨hrun, ⟨_, rfl⟩ | ⟨c, _, ⟨i, _, hexec⟩ | ⟨_, rfl⟩⟩⟩ := step_next h
  · cases hfault
  · rcases exec_completes_or_raises hexec with ⟨hsame, _⟩ | rfl
    · rw [hsame, hrun] at hfault
      cases hfault
    · exact ⟨rfl, nofun⟩
  · exact ⟨rfl, nofun⟩

end Sys2Proof.Machine

/-! PROOFS. The invariant: it holds after reset, every step and every host action keeps it, and so every run ends. -/

namespace Sys2Proof.Machine

/-! ### Records and the batch -/

/-- One more command counts one record, or none if it is OVERFLOW. -/
theorem recordsOf_take_succ {cmd : List CommandWord} {n : Nat} {c : CommandWord} (h : cmd[n]? = some c) :
    recordsOf (cmd.take (n + 1)) = recordsOf (cmd.take n) + if fieldOp c = 4#4 then 0 else 1 := by
  rw [List.take_add_one, h, recordsOf, recordsOf, List.countP_append]
  by_cases hop : fieldOp c = 4#4 <;> simp [hop]

theorem recordsOf_take_le (cmd : List CommandWord) (n : Nat) : recordsOf (cmd.take n) ≤ n :=
  List.countP_le_length.trans (List.length_take_le n cmd)

/-- OVERFLOW is the operation 4. -/
theorem fieldOp_eq_four_iff {c : CommandWord} {i : Instr} (h : decode c = .ok i) :
    fieldOp c = 4#4 ↔ ∃ p, i = .overflow p := by
  obtain ⟨_, ⟨hop, _, _, _, rfl⟩ | ⟨hop, _, _, rfl⟩ | ⟨hop, _, _, rfl⟩ | ⟨hop, _, p, _, rfl⟩⟩ := decode_ok h <;>
    simp [hop]

theorem fits_zero (c : Capacity) : c.fits 0 = true := by cases c <;> simp [Capacity.fits]

/-- A word fetched lies inside the batch. -/
theorem pc_lt_of_fetch {s : State} {c : CommandWord} (h : s.fetch = some c) : s.pc < s.ncmd :=
  (List.getElem?_eq_some_iff.mp h).1

/-! ### What keeps the invariant -/

/-- A buffer as the invariant wants it: canonical cells below `LEN`, and `LEN` inside `CAP`. -/
structure BufferInv (cfg : Config) (mem : Memory) (len : Nat) : Prop where
  canonical : mem.wf = true
  inside : ∀ c ∈ mem, c.1 < len
  lenFits : cfg.cap.fits len = true

theorem BufferInv.empty (cfg : Config) : BufferInv cfg [] 0 :=
  ⟨rfl, List.forall_mem_nil _, fits_zero _⟩

namespace StateInv
variable {s : State} (hinv : StateInv s)
include hinv

theorem buffer : BufferInv s.cfg s.mem s.len := ⟨hinv.canonical, hinv.inside, hinv.lenFits⟩

/-- No other part of the invariant speaks of the buffer. -/
theorem withBuffer {mem : Memory} {len : Nat} (hbuf : BufferInv s.cfg mem len) :
    StateInv { s with mem := mem, len := len } :=
  { hinv with canonical := hbuf.canonical, inside := hbuf.inside, lenFits := hbuf.lenFits }

/-- While no batch runs, another one may be loaded. -/
theorem withBatch (hrun : s.run ≠ .running) {words : List CommandWord}
    (hfits : s.cfg.qcap.fits words.length = true) : StateInv { s with cmd := words } :=
  { hinv with
    batchFits := hfits
    runningPc := fun h => absurd h hrun
    runningLegal := fun h => absurd h hrun
    runningRecords := fun h => absurd h hrun }

/-- A started batch of legal words. -/
theorem started (hlegal : ∀ c ∈ s.cmd, legal c = true) : StateInv { s.clearRun with run := .running } :=
  { hinv with
    pcFits := fits_zero _
    resFits := fits_zero _
    runningPc := fun _ => Nat.zero_le _
    runningLegal := fun _ => hlegal
    runningRecords := fun _ => rfl
    records := List.forall_mem_nil _
    noFault := fun _ => ⟨rfl, rfl⟩
    someFault := nofun
    capacityAtPc := nofun
    illegalAtStart := nofun
    idleAtStart := nofun }

/-- A batch rejected at its start. -/
theorem rejected (i : Nat) : StateInv (s.clearRun.raise .illegalCmd i) :=
  { hinv with
    pcFits := fits_zero _
    resFits := fits_zero _
    runningPc := nofun
    runningLegal := nofun
    runningRecords := nofun
    records := List.forall_mem_nil _
    noFault := fun h => absurd rfl h
    someFault := fun _ => nofun
    capacityAtPc := nofun
    illegalAtStart := fun _ => ⟨rfl, rfl⟩
    idleAtStart := nofun }

/-- A command that does not fit the buffer memory. -/
theorem raisedCapacity : StateInv (s.raise .capacity s.pc) :=
  { hinv with
    runningPc := nofun
    runningLegal := nofun
    runningRecords := nofun
    noFault := fun h => absurd rfl h
    someFault := fun _ => nofun
    capacityAtPc := fun _ => rfl
    illegalAtStart := nofun
    idleAtStart := nofun }

section running
variable (hrun : s.run = .running)
include hrun

theorem fcause_of_running : s.fcause = .none := (hinv.noFault (by rw [hrun]; exact nofun)).1

theorem decodes_of_running {c : CommandWord} (hc : s.fetch = some c) : ∃ i, decode c = .ok i :=
  legal_iff_decode_ok.mp (hinv.runningLegal hrun c (List.mem_of_getElem? hc))

/-- The end of the batch. -/
theorem finished : StateInv s.finish :=
  { hinv with
    runningPc := nofun
    runningLegal := nofun
    runningRecords := nofun
    noFault := fun _ => hinv.noFault (by rw [hrun]; exact nofun)
    someFault := nofun
    idleAtStart := nofun }

/-- A command that completed, with its record if it gives one. -/
theorem completed (hpc : s.pc < s.ncmd) {mem : Memory} {len : Nat} {policy : Policy} {res : List ResultRecord}
    (hbuf : BufferInv s.cfg mem len) (hcount : res.length = recordsOf (s.cmd.take (s.pc + 1)))
    (hproper : ∀ r ∈ res, r.proper) :
    StateInv { s with mem := mem, len := len, policy := policy, res := res, pc := s.pc + 1 } :=
  have hres : res.length ≤ s.ncmd := by
    have hle := recordsOf_take_le s.cmd (s.pc + 1)
    omega
  { hinv with
    canonical := hbuf.canonical
    inside := hbuf.inside
    lenFits := hbuf.lenFits
    pcFits := fits_mono hpc hinv.batchFits
    resFits := fits_mono hres hinv.batchFits
    runningPc := fun _ => hpc
    runningRecords := fun _ => hcount
    records := hproper
    capacityAtPc := fun h => by cases (hinv.fcause_of_running hrun).symm.trans h
    illegalAtStart := fun h => by cases (hinv.fcause_of_running hrun).symm.trans h
    idleAtStart := fun h => by cases hrun.symm.trans h }

/-- An instruction of the batch that answers keeps the invariant: it completed, or raised CAPACITY. -/
theorem executed {t : State} {c : CommandWord} {i : Instr} (hc : s.fetch = some c) (hdec : decode c = .ok i)
    (h : exec i s = .next t) : StateInv t := by
  have hcount := recordsOf_take_succ hc
  rw [← hinv.runningRecords hrun] at hcount
  rcases exec_next h with ⟨u, rfl, hu, hres, hmem⟩ | rfl
  · have hbuf : BufferInv s.cfg u.mem u.len := by
      rcases hmem with ⟨hm, hl⟩ | ⟨off, w, val, b, hw, hm, hl⟩
      · rw [hm, hl]
        exact hinv.buffer
      · obtain ⟨hwf, hin, hfits⟩ := fieldWrite_keeps hinv.canonical hinv.inside hinv.lenFits hw
        rw [hm, hl]
        rw [fieldWrite_ok hw] at hfits
        exact ⟨hwf, hin, hfits⟩
    have hrecords : u.res.length = recordsOf (s.cmd.take (s.pc + 1)) ∧ ∀ r ∈ u.res, r.proper := by
      rcases hres with ⟨hnot, r, hproper, hres⟩ | ⟨⟨p, rfl⟩, hres⟩
      · rw [hres, hcount, if_neg fun hop => (((fieldOp_eq_four_iff hdec).mp hop).elim hnot)]
        exact ⟨List.length_append, List.forall_mem_append.mpr ⟨hinv.records, List.forall_mem_singleton.mpr hproper⟩⟩
      · rw [hres, hcount, if_pos ((fieldOp_eq_four_iff hdec).mpr ⟨p, rfl⟩)]
        exact ⟨rfl, hinv.records⟩
    rw [hu]
    exact hinv.completed hrun (pc_lt_of_fetch hc) hbuf hrecords.1 hrecords.2
  · exact hinv.raisedCapacity

end running

/-- Every step keeps the invariant: a running batch holds no word the decoder refuses. -/
theorem step {t : State} (h : Machine.step s = .next t) : StateInv t := by
  obtain ⟨hrun, ⟨_, rfl⟩ | ⟨c, hc, ⟨i, hdec, hexec⟩ | ⟨⟨e, he⟩, _⟩⟩⟩ := step_next h
  · exact hinv.finished hrun
  · exact hinv.executed hrun hc hdec hexec
  · obtain ⟨i, hi⟩ := hinv.decodes_of_running hrun hc
    cases he.symm.trans hi

theorem start : StateInv (hostStart s) := by
  rcases hostStart_cases s with ⟨_, h⟩ | ⟨_, hlegal, h⟩ | ⟨_, i, _, h⟩ <;> rw [h]
  · exact hinv
  · exact hinv.started hlegal
  · exact hinv.rejected i

/-- Every host action keeps the invariant. -/
theorem host (a : HostAction) : StateInv (hostEffect a s) := by
  cases a with
  | loadBuffer bytes =>
    rw [hostEffect]
    rcases hostLoadBuffer_cases bytes s with h | ⟨_, hfits, h⟩ <;> rw [h]
    · exact hinv
    · exact hinv.withBuffer ⟨wf_ofBytes _ _, fun c hc => by simpa using (mem_ofBytes hc).2, hfits⟩
  | loadBatch words =>
    rw [hostEffect]
    rcases hostLoadBatch_cases words s with h | ⟨hrun, hfits, h⟩ <;> rw [h]
    · exact hinv
    · exact hinv.withBatch hrun hfits
  | start => exact hinv.start
  | readStatus | readResults | readBuffer => exact hinv

/-- A byte pushed behind the last one. -/
theorem pushed (b : Byte) (hfits : s.cfg.cap.fits (s.len + 1) = true) :
    BufferInv s.cfg (s.mem.write s.len b) (s.len + 1) :=
  have hinside : ∀ c ∈ s.mem, c.1 < s.len + 1 := fun c hc => (hinv.inside c hc).trans s.len.lt_succ_self
  ⟨wf_write _ _ hinv.canonical, write_inside s.len.lt_succ_self hinside, hfits⟩

/-- Every strobe keeps the invariant while no batch runs. -/
theorem strobe (hrun : s.run ≠ .running) (p : Strobe) : StateInv (strobeEffect p s) := by
  cases p with
  | none => exact hinv
  | bufClear => exact hinv.withBuffer (.empty _)
  | bufPush b =>
    rw [strobeEffect]
    split
    · next hfits => exact hinv.withBuffer (hinv.pushed b hfits)
    · exact hinv
  | cmdClear => exact hinv.withBatch hrun (fits_zero _)
  | cmdPush w =>
    rw [strobeEffect]
    split
    · next hfits => exact hinv.withBatch hrun (by rwa [List.length_append])
    · exact hinv
  | start => exact hinv.start

end StateInv

theorem stateInv_resetWith (cfg : Config) : StateInv (State.resetWith cfg) where
  canonical := rfl
  inside := List.forall_mem_nil _
  lenFits := fits_zero _
  batchFits := fits_zero _
  pcFits := fits_zero _
  resFits := fits_zero _
  runningPc := nofun
  runningLegal := nofun
  runningRecords := nofun
  records := List.forall_mem_nil _
  noFault := fun _ => ⟨rfl, rfl⟩
  someFault := nofun
  capacityAtPc := nofun
  illegalAtStart := nofun
  idleAtStart := fun _ => ⟨rfl, rfl⟩

theorem StateInv.pins {s : State} (hinv : StateInv s) (rst : Bool) (p : Strobe) : StateInv (pinEdge rst p s) := by
  unfold pinEdge
  split
  · exact stateInv_resetWith s.cfg
  · split
    · exact hinv
    · next hrun => exact hinv.strobe hrun p

theorem StateInv.event {s t : State} (hinv : StateInv s) {e : Event} (h : e.apply s = some t) : StateInv t := by
  cases e with
  | sequencer =>
    rw [Event.apply] at h
    cases hstep : Machine.step s with
    | next u =>
      rw [hstep] at h
      cases h
      exact hinv.step hstep
    | fault _ | refused _ =>
      rw [hstep] at h
      cases h
  | host a =>
    cases h
    exact hinv.host a
  | reset =>
    cases h
    exact stateInv_resetWith s.cfg

/-! ### Runs -/

/-- Before the end of its batch a running state either goes on or faults. -/
theorem step_goes_on_or_faults {s t : State} (hpc : s.pc < s.ncmd) (h : step s = .next t) :
    (t.run = .running ∧ t.pc = s.pc + 1 ∧ t.cmd = s.cmd) ∨ t.run = .fault := by
  obtain ⟨hrun, ⟨hend, _⟩ | ⟨c, _, ⟨i, _, hexec⟩ | ⟨_, rfl⟩⟩⟩ := step_next h
  · omega
  · obtain ⟨_, hcmd⟩ := exec_keeps_batch hexec
    rcases exec_completes_or_raises hexec with ⟨hsame, hnext, _⟩ | rfl
    · exact .inl ⟨hsame.trans hrun, hnext, hcmd⟩
    · exact .inr rfl
  · exact .inr rfl

theorem run_succ_of_next (M : Host.Core) {s u : M.State} (h : M.step s = .next u) (k : Nat) :
    M.run (k + 1) s = M.run k u := by
  rw [Host.Core.run, h]

/-- What `EveryRunEnds` says of one run. -/
def RunEnds (s : State) (k : Nat) (t : State) : Prop :=
  Sys2Proof.core.run k s = .next t ∧ t.ended ∧ k ≤ s.ncmd - s.pc + 1 ∧
    (t.run = .done → k = s.ncmd - s.pc + 1 ∧ t.pc = s.ncmd ∧ t.rcnt = recordsOf s.cmd)

theorem runEnds_at_end {s : State} (hinv : StateInv s) (hrun : s.run = .running) (hend : s.pc = s.ncmd) :
    RunEnds s 1 s.finish := by
  have hcount : s.rcnt = recordsOf s.cmd := by
    rw [hinv.runningRecords hrun, hend, State.ncmd, List.take_length]
  exact ⟨run_succ_of_next Sys2Proof.core (step_at_end hrun hend) 0, .inl rfl, by omega,
    fun _ => ⟨by omega, hend, hcount⟩⟩

/-- A fault ends the run at once. -/
theorem runEnds_of_fault {s t : State} (h : step s = .next t) (hfault : t.run = .fault) : RunEnds s 1 t :=
  ⟨run_succ_of_next Sys2Proof.core h 0, .inr hfault, by omega, fun hdone => by cases hdone.symm.trans hfault⟩

/-- A run from the next command, counted from this one. -/
theorem runEnds_of_step {s u t : State} {k : Nat} (h : step s = .next u) (hlt : s.pc < s.ncmd) (hpc : u.pc = s.pc + 1)
    (hcmd : u.cmd = s.cmd) (hends : RunEnds u k t) : RunEnds s (k + 1) t := by
  have hncmd : u.ncmd = s.ncmd := congrArg List.length hcmd
  obtain ⟨hk, hended, hle, hdone⟩ := hends
  rw [hncmd, hpc] at hle hdone
  rw [hcmd] at hdone
  refine ⟨(run_succ_of_next Sys2Proof.core h k).trans hk, hended, by omega, fun hrun => ?_⟩
  obtain ⟨hcount, hrest⟩ := hdone hrun
  exact ⟨by omega, hrest⟩

/-- By induction on the commands left. -/
theorem StateInv.runEnds {s : State} (hinv : StateInv s) (hrun : s.run = .running) : ∃ k t, RunEnds s k t := by
  induction hleft : s.ncmd - s.pc generalizing s with
  | zero =>
    have hle := hinv.runningPc hrun
    exact ⟨1, s.finish, runEnds_at_end hinv hrun (by omega)⟩
  | succ n ih =>
    have hlt : s.pc < s.ncmd := by omega
    obtain ⟨u, hu⟩ := step_answers hrun hlt.le
    rcases step_goes_on_or_faults hlt hu with ⟨hrun', hpc, hcmd⟩ | hfault
    · have hncmd : u.ncmd = s.ncmd := congrArg List.length hcmd
      obtain ⟨k, t, hends⟩ := ih (hinv.step hu) hrun' (by omega)
      exact ⟨k + 1, t, runEnds_of_step hu hlt hpc hcmd hends⟩
    · exact ⟨1, u, runEnds_of_fault hu hfault⟩

/-! ### The obligations -/

/-- Settles O43: the end of the batch, a command that completes or raises CAPACITY, and no illegal word. -/
theorem stepKeepsTheInvariant : Obligations.StepKeepsTheInvariant := fun _ _ hinv => hinv.step

/-- Settles O42: no register holds anything yet, and 0 fits every capacity. -/
theorem resetSatisfiesTheInvariant : Obligations.ResetSatisfiesTheInvariant := stateInv_resetWith

/-- Settles O41: reset is one fixed state, whose empty buffer reads 0 everywhere. -/
theorem resetLeavesEveryElementAtItsValue : Obligations.ResetLeavesEveryElementAtItsValue :=
  ⟨fun _ => ⟨rfl, rfl, fun a => if_neg a.not_lt_zero, rfl, rfl, rfl, rfl, rfl, rfl, rfl⟩, rfl⟩

/-- Settles O44: each host action and each strobe loads the buffer or the batch, starts, or does nothing. -/
theorem hostKeepsTheInvariant : Obligations.HostKeepsTheInvariant := fun s hinv =>
  ⟨hinv.host, stateInv_resetWith s.cfg, hinv.pins⟩

/-- Settles O45, by induction on how the state was reached. -/
theorem reachableStatesSatisfyTheInvariant : Obligations.ReachableStatesSatisfyTheInvariant := by
  intro s h
  induction h with
  | reset cfg => exact stateInv_resetWith cfg
  | event e _ happly ih => exact ih.event happly

/-- Settles O46, by induction on the commands left. -/
theorem everyRunEnds : Obligations.EveryRunEnds := fun _ hinv => hinv.runEnds

end Sys2Proof.Machine

/-! PROOFS. The host and the pins: a start, the loads and their reads, and what lies beyond `LEN`. -/

namespace Sys2Proof.Machine

/-! ### A start -/

/-- Pre-validation finds the least index of an illegal word (60 R131). -/
theorem firstIllegal_eq_some {words : List CommandWord} {i : Nat} {c : CommandWord} (hc : words[i]? = some c)
    (hillegal : legal c = false) (hleast : ∀ j d, j < i → words[j]? = some d → legal d = true) :
    firstIllegal words = some i := by
  obtain ⟨hi, rfl⟩ := List.getElem?_eq_some_iff.mp hc
  rw [firstIllegal, List.findIdx?_eq_some_iff_getElem]
  refine ⟨hi, by rw [hillegal]; rfl, fun j hj => ?_⟩
  rw [hleast j _ hj (List.getElem?_eq_getElem (hj.trans hi))]
  exact nofun

section stopped
variable {s : State} (hrun : s.run ≠ .running)
include hrun

theorem hostStart_of_legal (hlegal : ∀ c ∈ s.cmd, legal c = true) :
    hostStart s = { s.clearRun with run := .running } := by
  rw [hostStart, if_neg hrun, firstIllegal_eq_none.mpr hlegal]

theorem hostStart_of_illegal {i : Nat} (h : firstIllegal s.cmd = some i) :
    hostStart s = s.clearRun.raise .illegalCmd i := by
  rw [hostStart, if_neg hrun, h]

/-! ### Loads -/

theorem hostLoadBuffer_of_fits {bytes : List Byte} (h : s.cfg.cap.fits bytes.length = true) :
    hostLoadBuffer bytes s = { s with mem := Memory.ofBytes 0 bytes, len := bytes.length } := by
  rw [hostLoadBuffer, if_neg hrun, if_pos h]

theorem hostLoadBuffer_of_not_fits {bytes : List Byte} (h : s.cfg.cap.fits bytes.length = false) :
    hostLoadBuffer bytes s = s := by
  rw [hostLoadBuffer, if_neg hrun, if_neg (by rw [h]; exact Bool.false_ne_true)]

theorem hostLoadBatch_of_fits {words : List CommandWord} (h : s.cfg.qcap.fits words.length = true) :
    hostLoadBatch words s = { s with cmd := words } := by
  rw [hostLoadBatch, if_neg hrun, if_pos h]

theorem hostLoadBatch_of_not_fits {words : List CommandWord} (h : s.cfg.qcap.fits words.length = false) :
    hostLoadBatch words s = s := by
  rw [hostLoadBatch, if_neg hrun, if_neg (by rw [h]; exact Bool.false_ne_true)]

end stopped

/-- The cells of a list of bytes read back as that list. -/
theorem bufferBytes_ofBytes (s : State) (bytes : List Byte) :
    State.bufferBytes { s with mem := Memory.ofBytes 0 bytes, len := bytes.length } = bytes := by
  apply List.ext_getElem
  · simp [State.bufferBytes]
  · intro i _ hi
    simp [State.bufferBytes, State.byteAt, hi, read_ofBytes]

/-! ### The pins -/

/-- Outside a run, with `rst` low, an edge is its strobe. -/
theorem pinEdge_of_not_running {s : State} (hrun : s.run ≠ .running) (p : Strobe) :
    pinEdge false p s = strobeEffect p s := if_neg hrun

/-- A byte written behind the last one extends the list of bytes. -/
theorem write_ofBytes (bytes : List Byte) (b : Byte) :
    (Memory.ofBytes 0 bytes).write bytes.length b = Memory.ofBytes 0 (bytes ++ [b]) := by
  refine memory_ext (wf_write _ _ (wf_ofBytes _ _)) (wf_ofBytes _ _) fun a => ?_
  rw [read_write, read_ofBytes, read_ofBytes, if_pos (Nat.zero_le a), if_pos (Nat.zero_le a), Nat.sub_zero]
  rcases lt_trichotomy a bytes.length with hlt | heq | hgt
  · rw [if_neg hlt.ne, List.getD_append _ _ _ _ hlt]
  · rw [if_pos heq, heq, List.getD_append_right _ _ _ _ le_rfl, Nat.sub_self]
    rfl
  · rw [if_neg hgt.ne', List.getD_eq_default _ _ hgt.le, List.getD_eq_default _ _ (by simp; omega)]

section pushes
variable {s : State} (hrun : s.run ≠ .running)
include hrun

theorem pinEdge_bufPush_load {bytes : List Byte} {b : Byte} (h : s.cfg.cap.fits (bytes ++ [b]).length = true) :
    pinEdge false (.bufPush b) (hostLoadBuffer bytes s) = hostLoadBuffer (bytes ++ [b]) s := by
  have hfits : s.cfg.cap.fits (bytes.length + 1) = true := by rwa [List.length_append] at h
  rw [hostLoadBuffer_of_fits hrun h, hostLoadBuffer_of_fits hrun (fits_mono (Nat.le_succ _) hfits), ← write_ofBytes,
    List.length_append]
  refine (pinEdge_of_not_running ?_ _).trans (if_pos hfits)
  exact hrun

theorem pinEdge_cmdPush_load {words : List CommandWord} {w : CommandWord}
    (h : s.cfg.qcap.fits (words ++ [w]).length = true) :
    pinEdge false (.cmdPush w) (hostLoadBatch words s) = hostLoadBatch (words ++ [w]) s := by
  have hfits : s.cfg.qcap.fits (words.length + 1) = true := by rwa [List.length_append] at h
  rw [hostLoadBatch_of_fits hrun h, hostLoadBatch_of_fits hrun (fits_mono (Nat.le_succ _) hfits)]
  refine (pinEdge_of_not_running ?_ _).trans (if_pos hfits)
  exact hrun

theorem bufPushes_eq_load (bytes : List Byte) (h : s.cfg.cap.fits bytes.length = true) :
    bytes.foldl (fun t b => pinEdge false (.bufPush b) t) (pinEdge false .bufClear s) = hostLoadBuffer bytes s := by
  induction bytes using List.reverseRecOn with
  | nil =>
    rw [hostLoadBuffer_of_fits hrun h]
    exact pinEdge_of_not_running hrun _
  | append_singleton bytes b ih =>
    have hfits : s.cfg.cap.fits bytes.length = true := fits_mono (by simp) h
    rw [List.foldl_concat, ih hfits, pinEdge_bufPush_load hrun h]

theorem cmdPushes_eq_load (words : List CommandWord) (h : s.cfg.qcap.fits words.length = true) :
    words.foldl (fun t w => pinEdge false (.cmdPush w) t) (pinEdge false .cmdClear s) = hostLoadBatch words s := by
  induction words using List.reverseRecOn with
  | nil =>
    rw [hostLoadBatch_of_fits hrun h]
    exact pinEdge_of_not_running hrun _
  | append_singleton words w ih =>
    have hfits : s.cfg.qcap.fits words.length = true := fits_mono (by simp) h
    rw [List.foldl_concat, ih hfits, pinEdge_cmdPush_load hrun h]

end pushes

/-! ### What lies beyond `LEN` -/

theorem exec_get_of_legal {ty : FieldType} (hlegal : ty.legal = true) (off : Offset) (s : State) :
    exec (.get ty off) s = .next (s.append (plainRecord (fieldRead s (effectiveAddress ty off) ty))).advance :=
  withLegalType_of_legal _ hlegal

section visible
variable {s t : State} (h : SameVisible s t)
include h

theorem sameVisible_append (r : ResultRecord) : SameVisible (s.append r) (t.append r) := by
  obtain ⟨heq, hbytes⟩ := h
  refine ⟨?_, hbytes⟩
  rw [heq]
  rfl

theorem sameVisible_setPolicy (p : Policy) : SameVisible (s.setPolicy p) (t.setPolicy p) := by
  obtain ⟨heq, hbytes⟩ := h
  refine ⟨?_, hbytes⟩
  rw [heq]
  rfl

theorem sameVisible_advance : SameVisible s.advance t.advance := by
  obtain ⟨heq, hbytes⟩ := h
  refine ⟨?_, hbytes⟩
  rw [heq]
  rfl

theorem sameVisible_raise (c : FaultCause) (i : Nat) : SameVisible (s.raise c i) (t.raise c i) := by
  obtain ⟨heq, hbytes⟩ := h
  refine ⟨?_, hbytes⟩
  rw [heq]
  rfl

theorem sameVisible_bufBit (p : Nat) : t.bufBit p = s.bufBit p := by
  obtain ⟨_, hbytes⟩ := h
  rw [bufBit_eq_byteAt, bufBit_eq_byteAt, hbytes]

theorem sameVisible_fieldRead (off : Nat) (ty : FieldType) : fieldRead t off ty = fieldRead s off ty := by
  rw [fieldRead, fieldRead, extract_eq_shiftIn, extract_eq_shiftIn, shiftIn_congr fun i _ => sameVisible_bufBit h _]

theorem sameVisible_len : t.len = s.len := by
  obtain ⟨heq, _⟩ := h
  rw [heq]

theorem sameVisible_policy : t.policy = s.policy := by
  obtain ⟨heq, _⟩ := h
  rw [heq]

theorem sameVisible_pc : t.pc = s.pc := by
  obtain ⟨heq, _⟩ := h
  rw [heq]

theorem sameVisible_writeFits (off w : Nat) : WriteFits t off w ↔ WriteFits s off w := by
  obtain ⟨heq, _⟩ := h
  rw [heq]
  rfl

theorem sameVisible_incrbyCompute (ty : FieldType) (ea : Nat) (v : Value) :
    incrbyCompute ty ea v t = incrbyCompute ty ea v s := by
  rw [incrbyCompute, incrbyCompute, sameVisible_fieldRead h, sameVisible_policy h]

/-- A field write grows both buffers alike and sets the same bits. -/
theorem sameVisible_fieldWrite {off w : Nat} {val : Int} {r : WriteOutput} (hs : fieldWrite s off w val = .ok r) :
    ∃ q, fieldWrite t off w val = .ok q ∧ SameVisible r.state q.state := by
  obtain ⟨q, ht⟩ := fieldWrite_of_writeFits ((sameVisible_writeFits h off w).mpr (writeFits_of_ok hs)) val
  have hlen : t.len = s.len := sameVisible_len h
  have hbitLen : t.bitLen = s.bitLen := congrArg (8 * ·) hlen
  refine ⟨q, ht, ?_⟩
  by_cases hoff : off ≤ s.bitLen
  · have hoff' : off ≤ t.bitLen := hbitLen ▸ hoff
    have hlen' : q.state.len = r.state.len := by
      rw [fieldWrite_len ht hoff', fieldWrite_len hs hoff, growthOf, growthOf, hbitLen, hlen]
    have hbits : ∀ p, q.state.bufBit p = r.state.bufBit p := fun p => by
      rw [bufBit_fieldWrite ht hoff', bufBit_fieldWrite hs hoff, sameVisible_bufBit h]
    refine ⟨?_, fun a => byteAt_eq_of_bufBit_eq fun p _ => hbits p⟩
    rw [fieldWrite_ok ht, hlen', fieldWrite_ok hs, h.1]
  · rw [fieldWrite_of_guarded hs (not_le.mp hoff), fieldWrite_of_guarded ht (hbitLen ▸ not_le.mp hoff)]
    exact h

theorem sameVisible_fieldWrite_error {off w : Nat} {val : Int} (hs : fieldWrite s off w val = .error .capacity) :
    fieldWrite t off w val = .error .capacity := by
  rw [fieldWrite_eq_error_iff] at *
  rwa [sameVisible_writeFits h]

/-- A SET answers alike, by the outcome of its write. -/
theorem sameVisible_exec_set {ty : FieldType} {off : Offset} {v : Value} {u : State}
    (hs : exec (.set ty off v) s = .next u) : ∃ u', exec (.set ty off v) t = .next u' ∧ SameVisible u u' := by
  have hlegal : ty.legal = true := (withLegalType_next hs).1
  have hread := sameVisible_fieldRead h (effectiveAddress ty off) ty
  rcases exec_set_next hs with ⟨r, hw, rfl⟩ | ⟨hw, rfl⟩
  · obtain ⟨q, hq, hsame⟩ := sameVisible_fieldWrite h hw
    refine ⟨_, exec_set_of_ok hlegal hq, ?_⟩
    rw [hread]
    exact sameVisible_advance (sameVisible_append hsame _)
  · refine ⟨_, exec_set_of_error hlegal (sameVisible_fieldWrite_error h hw), ?_⟩
    rw [sameVisible_pc h]
    exact sameVisible_raise h _ _

/-- An INCRBY computes alike, so it is refused alike or writes the same value. -/
theorem sameVisible_exec_incrby {ty : FieldType} {off : Offset} {v : Value} {u : State}
    (hs : exec (.incrby ty off v) s = .next u) : ∃ u', exec (.incrby ty off v) t = .next u' ∧ SameVisible u u' := by
  have hlegal : ty.legal = true := (withLegalType_next hs).1
  have hcompute := sameVisible_incrbyCompute h ty (effectiveAddress ty off) v
  have hrefused : IncrbyRefused ty off v t ↔ IncrbyRefused ty off v s := by
    rw [incrbyRefused_iff, incrbyRefused_iff, hcompute, sameVisible_policy h]
  rcases exec_incrby_next hs with ⟨href, rfl⟩ | ⟨hnot, r, hw, rfl⟩ | ⟨hnot, hw, rfl⟩
  · refine ⟨_, exec_incrby_of_refused hlegal (hrefused.mpr href), ?_⟩
    rw [hcompute]
    exact sameVisible_advance (sameVisible_setPolicy (sameVisible_append h _) _)
  · obtain ⟨q, hq, hsame⟩ := sameVisible_fieldWrite h hw
    refine ⟨_, exec_incrby_of_ok hlegal (mt hrefused.mp hnot) (hcompute ▸ hq), ?_⟩
    rw [hcompute]
    exact sameVisible_advance (sameVisible_setPolicy (sameVisible_append hsame _) _)
  · have hfault := sameVisible_fieldWrite_error h hw
    refine ⟨_, exec_incrby_of_error hlegal (mt hrefused.mp hnot) (hcompute ▸ hfault), ?_⟩
    rw [sameVisible_pc h]
    exact sameVisible_raise h _ _

end visible

/-! ### The obligations -/

/-- Settles O47, by what pre-validation finds. -/
theorem startValidatesTheWholeBatch : Obligations.StartValidatesTheWholeBatch := fun _ hrun =>
  ⟨hostStart_of_legal hrun,
    fun _ _ hc hillegal hleast => hostStart_of_illegal hrun (firstIllegal_eq_some hc hillegal hleast)⟩

/-- Settles O48: every action and strobe looks at `RUN` first. -/
theorem hostIsIgnoredWhileRunning : Obligations.HostIsIgnoredWhileRunning := by
  intro s hrun
  refine ⟨fun a => ?_, fun strobe => if_pos hrun, if_pos hrun, if_pos hrun, by rw [hostReply, hrun]⟩
  cases a with
  | loadBuffer _ | loadBatch _ | start => exact if_pos hrun
  | readStatus | readResults | readBuffer => rfl

/-- Settles O49: a load that fits replaces its store, and the cells of a list of bytes read back as the list. -/
theorem loadsReplaceTheWholeStore : Obligations.LoadsReplaceTheWholeStore := by
  intro s hrun
  refine ⟨fun bytes => ⟨fun hfits => ?_, hostLoadBuffer_of_not_fits hrun⟩, fun words =>
    ⟨hostLoadBatch_of_fits hrun, hostLoadBatch_of_not_fits hrun⟩⟩
  rw [hostLoadBuffer_of_fits hrun hfits]
  refine ⟨(if_neg hrun).trans ?_, rfl⟩
  rw [bufferBytes_ofBytes]

/-- Settles O50, by induction on what is pushed, the last push outermost. -/
theorem pinPushesAreTheHostLoads : Obligations.PinPushesAreTheHostLoads := fun _ hrun =>
  ⟨bufPushes_eq_load hrun, cmdPushes_eq_load hrun⟩

/-- Settles O52: the codec reads bits below `LEN` only, so the two states read, compute and write alike. -/
theorem bytesBeyondTheBufferCannotBeSeen : Obligations.BytesBeyondTheBufferCannotBeSeen := by
  intro i s s' t hsame h
  cases i with
  | get ty off =>
    have hlegal : ty.legal = true := (withLegalType_next h).1
    obtain rfl := exec_get_next h
    refine ⟨_, exec_get_of_legal hlegal off s', ?_⟩
    rw [sameVisible_fieldRead hsame]
    exact sameVisible_advance (sameVisible_append hsame _)
  | set ty off v => exact sameVisible_exec_set hsame h
  | incrby ty off v => exact sameVisible_exec_incrby hsame h
  | overflow p =>
    cases h
    exact ⟨_, rfl, sameVisible_advance (sameVisible_setPolicy hsame p)⟩

end Sys2Proof.Machine
